-- ==== Sys2Proof/Word.lean ====
section
/-! DEFINITION. The words of the OS21Tx block: bytes, nibbles, and the frame as a value. -/

namespace Sys2Proof

/-- A byte of the frame buffer or of a command (00_scope.md R8: bit 0 is the least significant). -/
abbrev Byte := BitVec 8

/-- One 4-bit half of a byte (00_scope.md R9). -/
abbrev Nibble := BitVec 4

/-- The contents of the 12-byte frame buffer as a VALUE, byte `j` at `j` (10_state.md R11). It is what the pure
digest and waveform functions read; the machine's state holds the bytes as plain data (`Machine.Memory`). -/
abbrev Frame := Fin 12 → Byte

/-- Little-endian reading of bytes: the first byte is the least significant (30_encoding.md R50). -/
def leNat : List Byte → Nat
  | [] => 0
  | b :: bs => b.toNat + 256 * leNat bs

/-- The `n` low bytes of a number, least significant first (30_encoding.md R50). -/
def leBytes : Nat → Nat → List Byte
  | 0, _ => []
  | n + 1, v => BitVec.ofNat 8 v :: leBytes n (v / 256)

end Sys2Proof
end

