-- ==== Sys2Proof/Syntax.lean ====
section
/-! DEFINITION. The commands: one constructor per row of spec/opcode_table.json (30_encoding.md R52), and the names of
what a decoder rejects (R50, R53). The block has no other instruction: nine commands are all it has. -/

namespace Sys2Proof

/-- The nine commands with their operands as the formats carry them (30_encoding.md R51, R52). -/
inductive Instr where
  /-- `NSUM mask`: masked nibble sum into `RES` (40_checksum_engine.md R66). -/
  | nsum (mask : BitVec 64)
  /-- `CRC8 init, mask`: masked CRC-8 into `RES` (40_checksum_engine.md R68). -/
  | crc8 (init : BitVec 8) (mask : BitVec 64)
  /-- `SETCH a`: one-hot channel code (41_frame_encoder.md R81). -/
  | setch (a : BitVec 8)
  /-- `SETID a`: rolling ID (41_frame_encoder.md R82). -/
  | setid (a : BitVec 8)
  /-- `SETTEMP sm`: temperature digits and sign (41_frame_encoder.md R83). -/
  | settemp (sm : BitVec 16)
  /-- `SETHUM a`: humidity digits (41_frame_encoder.md R84). -/
  | sethum (a : BitVec 8)
  /-- `SETBAT a`: low-battery flag (41_frame_encoder.md R85). -/
  | setbat (a : BitVec 8)
  /-- `FINAL`: checksum, then CRC (41_frame_encoder.md R86). -/
  | final
  /-- `TX`: start the transmission of the frame (42_transmitter.md R108). -/
  | tx
deriving DecidableEq, Repr

/-- Why a byte sequence given to the command port is no command. -/
inductive DecodeError where
  /-- No byte at all: there is no opcode to read (30_encoding.md R50). -/
  | noOpcode
  /-- An opcode byte other than the nine (30_encoding.md R53, U9). -/
  | reservedOpcode (opcode : BitVec 8)
  /-- Fewer bytes than the opcode's length (30_encoding.md R50: a command is presented whole). -/
  | truncated (opcode : BitVec 8)
  /-- More bytes than the opcode's length (30_encoding.md R50: the length is fixed by the opcode). -/
  | overlong (opcode : BitVec 8)
deriving DecidableEq, Repr

end Sys2Proof
end

