-- ==== Sys2Proof/Decode.lean ====
section
/-! DEFINITION. From the bytes at the command port to a command, total and rejecting by name, and back
(30_encoding.md R50 to R53). -/

namespace Sys2Proof

/-- One row of the operations' table: the opcode byte, how many operand bytes the format has, and the command its
operand bytes spell (30_encoding.md R51, R52). -/
structure OpcodeRow where
  opcode : Byte
  operandBytes : Nat
  build : List Byte → Instr

/-- The nine rows of 30_encoding.md R52, formats Z, B, H, M and IM of R51, multi-byte operands little-endian. -/
def opcodeRows : List OpcodeRow :=
  [ ⟨0x01, 8, fun b => .nsum (BitVec.ofNat 64 (leNat b))⟩,
    ⟨0x02, 9, fun b => .crc8 (BitVec.ofNat 8 (leNat (b.take 1))) (BitVec.ofNat 64 (leNat (b.drop 1)))⟩,
    ⟨0x10, 1, fun b => .setch (BitVec.ofNat 8 (leNat b))⟩,
    ⟨0x11, 1, fun b => .setid (BitVec.ofNat 8 (leNat b))⟩,
    ⟨0x12, 2, fun b => .settemp (BitVec.ofNat 16 (leNat b))⟩,
    ⟨0x13, 1, fun b => .sethum (BitVec.ofNat 8 (leNat b))⟩,
    ⟨0x14, 1, fun b => .setbat (BitVec.ofNat 8 (leNat b))⟩,
    ⟨0x15, 0, fun _ => .final⟩,
    ⟨0x20, 0, fun _ => .tx⟩ ]

/-- The row of an opcode byte, none where the byte is reserved (30_encoding.md R53). -/
def opcodeRow (opcode : Byte) : Option OpcodeRow :=
  opcodeRows.find? fun row => row.opcode == opcode

/-- The length in bytes of a command, fixed by its opcode byte alone (30_encoding.md R50). -/
def commandLength (opcode : Byte) : Option Nat :=
  (opcodeRow opcode).map fun row => row.operandBytes + 1

/-- Reads one whole command (30_encoding.md R50 to R53). Operand VALUES are not judged here: a value its command does
not define is refused by the command's meaning. -/
def decode : List Byte → Except DecodeError Instr
  | [] => .error .noOpcode
  | opcode :: operands =>
    match opcodeRow opcode with
    | none => .error (.reservedOpcode opcode)
    | some row =>
      if operands.length < row.operandBytes then .error (.truncated opcode)
      else if row.operandBytes < operands.length then .error (.overlong opcode)
      else .ok (row.build operands)

/-- The bytes of a command (30_encoding.md R50 to R52). -/
def encode : Instr → List Byte
  | .nsum mask => 0x01 :: leBytes 8 mask.toNat
  | .crc8 init mask => 0x02 :: init :: leBytes 8 mask.toNat
  | .setch a => [0x10, a]
  | .setid a => [0x11, a]
  | .settemp sm => 0x12 :: leBytes 2 sm.toNat
  | .sethum a => [0x13, a]
  | .setbat a => [0x14, a]
  | .final => [0x15]
  | .tx => [0x20]

/-- The bytes presented for a row's word of `nbits` bits: byte 0 is bits 7:0 (30_encoding.md R51), every bit from
`nbits` on is 0, and as many bytes are presented as the opcode asks for (one, where the opcode is reserved). -/
def tableWordBytes (nbits w : Nat) : List Byte :=
  let word := w % 2 ^ nbits
  leBytes ((commandLength (BitVec.ofNat 8 word)).getD 1) word

/-- The command the decoder reads from a row's word. -/
def decodeTableWord (nbits w : Nat) : Option Instr :=
  match decode (tableWordBytes nbits w) with
  | .ok i => some i
  | .error _ => none

end Sys2Proof
end

