-- ==== Sys2Proof/Machine/Flags.lean ====
section
/-! DEFINITION. Flag computations. The block has no status flags, condition codes or predicates (10_state.md R23):
the one overflow bit there is, the nibble sum's, is folded back inside the operation and not kept. That fold is
all this file holds. -/

namespace Sys2Proof.Machine

/-- Adds the overflow bit `SUMR[8]` back into `SUMR[7:0]` (40_checksum_engine.md R66, second line of the loop). -/
def foldOverflow (sumr : BitVec 9) : BitVec 9 :=
  (sumr.setWidth 8).setWidth 9 + (sumr.extractLsb' 8 1).setWidth 9

/-- One selected nibble into the running sum, the carry absorbed at once (40_checksum_engine.md R66). -/
def addFold (sumr : BitVec 9) (n : Nibble) : BitVec 9 :=
  foldOverflow ((sumr.setWidth 8).setWidth 9 + n.setWidth 9)

end Sys2Proof.Machine
end

