-- ==== Sys2Proof/Machine/Operands.lean ====
section
/-! DEFINITION. Operand assembly and field extraction: nibble positions and masks (20_memory.md R32, R33;
30_encoding.md R54), the sign-and-magnitude temperature and its digits (30_encoding.md R60, 41_frame_encoder.md R83),
the humidity digits (R84), the one-hot channel code (R81), and the host's conversions from numbers (30_encoding.md
R59, R60). -/

namespace Sys2Proof.Machine

/-! ## Nibble positions and masks -/

/-- `Nib(i)`: nibble position `i` is bits `4*(i mod 2)+3 .. 4*(i mod 2)` of byte `i div 2`, low nibble first
(20_memory.md R32). -/
def nib (F : Frame) (i : Fin 24) : Nibble :=
  (F ⟨i.val / 2, by omega⟩).extractLsb' (4 * (i.val % 2)) 4

/-- The nibble positions a mask selects, in ascending order: mask bit `i` is position `i` (30_encoding.md R54). -/
def selected (mask : BitVec 64) : List (Fin 24) :=
  (List.finRange 24).filter fun i => mask.getLsbD i.val

/-- A mask is defined when its bits 24 to 63 are all zero (20_memory.md R33). -/
def maskDefined (mask : BitVec 64) : Bool :=
  mask >>> 24 == 0

/-! ## The temperature operand -/

/-- `s = sm[15]`, the sign of a `SETTEMP` operand (30_encoding.md R60). -/
def tempSign (sm : BitVec 16) : Bool :=
  sm.getLsbD 15

/-- `m = sm[14:0]`, the magnitude in tenths of a degree (30_encoding.md R60). -/
def tempMagnitude (sm : BitVec 16) : Nat :=
  (sm.extractLsb' 0 15).toNat

/-- The decimal digit of weight `10^k` of a number (41_frame_encoder.md R83, R84: `(m div 10^k) mod 10`). -/
def decimalDigit (k m : Nat) : Nibble :=
  BitVec.ofNat 4 (m / 10 ^ k % 10)

/-- `d3`, the two-bit hundreds field of the temperature: `(m div 1000) mod 4` (41_frame_encoder.md R83). -/
def hundredsField (m : Nat) : Nibble :=
  BitVec.ofNat 4 (m / 1000 % 4)

/-- A byte from its two nibbles, `hi` in bits 7:4 (00_scope.md R8). -/
def nibbles (hi lo : Nibble) : Byte :=
  hi ++ lo

/-! ## The channel and battery operands -/

/-- `SETCH` is defined for 1, 2 and 3 (30_encoding.md R56). -/
def channelDefined (a : Byte) : Bool :=
  a == 1 || a == 2 || a == 3

/-- The one-hot channel code `1 << (a - 1)`: channel `n` sets bit `n - 1` (41_frame_encoder.md R81). -/
def channelCode (a : Byte) : Nibble :=
  (1 : Nibble) <<< (a.toNat - 1)

/-- `SETBAT` is defined when `a[7:1]` is zero (30_encoding.md R58). -/
def batteryDefined (a : Byte) : Bool :=
  a.extractLsb' 1 7 == 0

/-! ## The host's conversions from numbers -/

/-- Exact scaling by ten and truncation: sign `t < 0`, magnitude `floor(|t| * 10)` (30_encoding.md R60). For a
rational in lowest terms the floor is the integer quotient below. -/
def exactScale10 (t : ℚ) : Bool × Nat :=
  (decide (t.num < 0), t.num.natAbs * 10 / t.den)

/-- Packs sign and magnitude into `sm`; no operand exists from `m = 32768` on (30_encoding.md R60, U6). -/
def packTemp (s : Bool) (m : Nat) : Option (BitVec 16) :=
  if m < 32768 then some (BitVec.ofBool s ++ BitVec.ofNat 15 m) else none

/-- `TempOperand(t)` over the rationals (30_encoding.md R60). -/
def tempOperand (t : ℚ) : Option (BitVec 16) :=
  packTemp (exactScale10 t).1 (exactScale10 t).2

/-- `HumOperand(h) = floor(h + 1/2)` for `h >= 0` with `floor(h + 1/2) <= 255`; no operand otherwise
(30_encoding.md R59, U6). -/
def humOperand (h : ℚ) : Option Byte :=
  let r := (h + 1 / 2).floor
  if 0 ≤ h ∧ r ≤ 255 then some (BitVec.ofNat 8 r.toNat) else none

end Sys2Proof.Machine
end

