-- ==== Sys2Proof/Machine/Digest.lean ====
section
/-! DEFINITION. The ENGINE's two pure functions over a frame value (40_checksum_engine.md R65): the masked nibble sum
(R66) and the masked CRC-8 (R68, R69). They are defined on every frame contents and read bits 0 to 23 of the mask;
the commands refuse a mask with other bits set (20_memory.md R33). -/

namespace Sys2Proof.Machine

/-! ## The nibble sum -/

/-- The final value of `SUMR`: 0, then every selected nibble in ascending order (40_checksum_engine.md R66). -/
def nsumRegister (F : Frame) (mask : BitVec 64) : BitVec 9 :=
  (selected mask).foldl (fun sumr i => addFold sumr (nib F i)) 0

/-- `NSum(FRAME, mask) = SUMR[7:0]` (40_checksum_engine.md R66). -/
def nsum (F : Frame) (mask : BitVec 64) : Byte :=
  (nsumRegister F mask).setWidth 8

/-! ## The CRC -/

/-- The polynomial, settled by D0 (00_scope.md R6 `CRC_POLY`). -/
def crcPoly : Byte := 0x07

/-- `CrcShift(r, b)`: shift left by one, `b` in at bit 0, the polynomial added when a 1 went out
(40_checksum_engine.md R69). -/
def crcShift (r : Byte) (b : Bool) : Byte :=
  let shifted : Byte := r.extractLsb' 0 7 ++ BitVec.ofBool b
  if r.getLsbD 7 then shifted ^^^ crcPoly else shifted

/-- A nibble's bits in the order they enter the CRC, most significant first (40_checksum_engine.md R68). -/
def nibbleBits (n : Nibble) : List Bool :=
  [n.getLsbD 3, n.getLsbD 2, n.getLsbD 1, n.getLsbD 0]

/-- Shifts a string of bits through the register. -/
def crcBits (r : Byte) (bits : List Bool) : Byte :=
  bits.foldl crcShift r

/-- The eight zero bits flushed at the end; as a function of an 8-bit value it is `X8`
(40_checksum_engine.md R68, R72). -/
def crcFlush (r : Byte) : Byte :=
  crcBits r (List.replicate 8 false)

/-- `Crc8(FRAME, mask, init)` (40_checksum_engine.md R68). -/
def crc8 (F : Frame) (mask : BitVec 64) (init : Byte) : Byte :=
  crcFlush ((selected mask).foldl (fun r i => crcBits r (nibbleBits (nib F i))) init)

/-! ## The conventional form, used only to state a law -/

/-- One step of the conventional loop: the message bit is added to the bit shifted out, a zero comes in
(40_checksum_engine.md R70). -/
def crcConvShift (r : Byte) (b : Bool) : Byte :=
  let shifted : Byte := r.extractLsb' 0 7 ++ BitVec.ofBool false
  if r.getLsbD 7 ^^ b then shifted ^^^ crcPoly else shifted

/-- `CrcConv(FRAME, mask, J)` (40_checksum_engine.md R70): a second form to compare with, not a second definition. -/
def crcConv (F : Frame) (mask : BitVec 64) (J : Byte) : Byte :=
  (selected mask).foldl (fun r i => (nibbleBits (nib F i)).foldl crcConvShift r) J

end Sys2Proof.Machine
end

