-- ==== Sys2Proof/Config.lean ====
section
/-! DEFINITION. What an implementation fixes: the record `Params` of 00_scope.md R6, every OPEN value a field, its
constraints carried as proofs (R6, R7), and ONE opaque instance of it, of which nothing is known but those
constraints; beside it the opaque choice of what a timer configuration is. The spec's reference instantiation P0 stands
beside it, for worked examples only. -/

namespace Sys2Proof

/-- Which numbers name a configuration of the shared timer. At least one does; no more is known. -/
structure TimerNames where
  isName : Nat → Bool := fun _ => true
  zero_isName : isName 0 = true := by rfl
deriving Inhabited

/-- The parameter `TimerCfg` of 00_scope.md R6: an uninterpreted choice of names, so that how many configurations there are
is not known (log 3). It stands beside the record `Params` because a state holds configurations, whatever record a
meaning is given. -/
opaque Config.timerNames : TimerNames

/-- A configuration of the shared hardware timer. The spec makes the type opaque: a model knows only equality on it
(00_scope.md R6, 10_state.md R18, D19). A name is a number so that a state is plain data; nothing computes with the
number, and it cannot be proved that there are two configurations, or finitely or infinitely many. -/
structure TimerCfg where
  code : Nat
  legal : Config.timerNames.isName code = true
deriving DecidableEq, Repr

/-- The one configuration known to exist. -/
def TimerCfg.known : TimerCfg where
  code := 0
  legal := Config.timerNames.zero_isName

/-- Twelve bytes as a frame value. -/
def Frame.ofBytes (b0 b1 b2 b3 b4 b5 b6 b7 b8 b9 b10 b11 : Byte) : Frame := fun j =>
  match j with
  | 0 => b0 | 1 => b1 | 2 => b2 | 3 => b3 | 4 => b4 | 5 => b5
  | 6 => b6 | 7 => b7 | 8 => b8 | 9 => b9 | 10 => b10 | 11 => b11

/-- The frame of the documented example (rolling ID 0xBB, channel 1, 22.7 degrees, 30 percent, low battery) with the
given last two bytes (00_scope.md R7, 41_frame_encoder.md R89: bytes 6 and 9 hold the two open nibbles). -/
def referenceFrame (lowbatBits b9Hi : Nibble) (b10 b11 : Byte) : Frame :=
  Frame.ofBytes 0xFF 0xFF 0x1A 0x2D 0x10 0xBB (7#4 ++ lowbatBits) 0x22 0x00 (b9Hi ++ 3#4) b10 b11

/-- `Params` (00_scope.md R6). The defaults are P0's column where it has one and stand-ins elsewhere; they are there
so that the record is inhabited. -/
structure Params where
  /-- The nibbles the checksum covers. -/
  sumMask : BitVec 64 := 0xFFFF0
  /-- The nibbles the CRC covers. -/
  crcMask : BitVec 64 := 0x3FFFF0
  /-- The CRC's initial register value. -/
  crcInit : Byte := 0x09
  /-- The bits of the low nibble of byte 6 that the battery flag owns. -/
  lowbatBits : Nibble := 0x4
  /-- The constant high nibble of byte 9. -/
  b9Hi : Nibble := 0x7
  /-- The sign field's value, in bits 3:2, for a negative temperature. -/
  signNeg : Nibble := 0x8
  /-- Half-symbols per second (settled for the reference design, 42_transmitter.md R117). -/
  symbolRate : ℚ := 2048
  /-- The pause between the two transmissions of `TX2`, in seconds (42_transmitter.md R114). -/
  tPause : ℚ := 1
  /-- The configuration in which the timer ticks `symbolRate` times per second. -/
  periodicCfg : TimerCfg := TimerCfg.known
  /-- Whatever the device's reset gives its timer. -/
  tcfgReset : TimerCfg := TimerCfg.known
  /-- The host's own scaling of a temperature to sign and tenths (30_encoding.md R60). -/
  scale10 : ℚ → Bool × Nat := Machine.exactScale10
  sumMask_defined : Machine.maskDefined sumMask = true := by decide
  crcMask_defined : Machine.maskDefined crcMask = true := by decide
  masks_differ : crcMask ≠ sumMask := by decide
  lowbatBits_nonzero : lowbatBits ≠ 0 := by decide
  signNeg_legal : signNeg = 0x4 ∨ signNeg = 0x8 ∨ signNeg = 0xC := by decide
  symbolRate_pos : 0 < symbolRate := by norm_num
  tPause_pos : 0 < tPause := by norm_num
  /-- `Scale10` agrees with `TempOperand` on every decimal with one fractional digit: the same operand where there is
  one. DEDUCED (log 17): beyond the operands' range, where the spec says only that no operand exists, the agreement is
  read as none existing by the host's scaling either; the magnitude it then gives is not fixed. -/
  scale10_tenths : ∀ k : Int,
    Machine.packTemp (scale10 ((k : ℚ) / 10)).1 (scale10 ((k : ℚ) / 10)).2 = Machine.tempOperand ((k : ℚ) / 10) := by
      exact fun _ => rfl
  /-- R7, checksum half: the documented example's checksum is 0x4A. -/
  reference_sum : Machine.nsum (referenceFrame lowbatBits b9Hi 0 0) sumMask = 0x4A := by decide +kernel
  /-- R7, CRC half: with that checksum in place the documented example's CRC is 0x55. -/
  reference_crc : Machine.crc8 (referenceFrame lowbatBits b9Hi 0x4A 0) crcMask crcInit = 0x55 := by decide +kernel
deriving Inhabited

/-- The hardware's parameters: an uninterpreted constant, so that what is proved of the model holds for every
`Params` that meets R6 and R7 (91_not_in_source.md N1). -/
opaque Config.params : Params

/-- P0, the spec's reference instantiation (00_scope.md R6). It gives the timer's configurations no value, and they stand
here at the one that is known. Only worked examples use it. -/
def Params.p0 : Params where
  sumMask := 0x00000000000FFFF0
  crcMask := 0x00000000003FFFF0
  crcInit := 0x09
  lowbatBits := 0x4
  b9Hi := 0x7
  signNeg := 0x8

/-- The tick period in seconds (70_reset_and_hazards.md R176); no rule of the machine reads it. -/
def Params.tickPeriod (p : Params) : ℚ := 1 / p.symbolRate

end Sys2Proof
end

