-- ==== Sys2Proof/Machine/State.lean ====
section
/-! DEFINITION. The machine's state as plain data: the tuple of 10_state.md R10, the history of R21, and the inputs the
environment has still to give (R22, R25), with the reasons a step can stop. -/

namespace Sys2Proof.Machine

/-- The frame buffer as plain data: the bytes that differ from the reset contents, addresses strictly rising
(`Memory.wf`). It is the block's only memory, addresses 0 to 11 (20_memory.md R30). -/
abbrev Memory := List Host.Cell

/-- What the host does at the block's ports (10_state.md R25). -/
inductive HostAct where
  /-- A command is presented whole at the command port (30_encoding.md R50). -/
  | command (bytes : List Byte)
  /-- The host timer step: the host's own delay functions set the timer (10_state.md R28). -/
  | setTimer (c : TimerCfg)
deriving DecidableEq, Repr

/-- One sample of the block's inputs (30_encoding.md R64): the reset line, the tick line, and what the host does.
Events that coincide stand in one sample (60_exceptions.md R140). -/
structure Input where
  reset : Bool := false
  tick : Bool := false
  host : Option HostAct := none
deriving DecidableEq, Repr

/-- The state of 10_state.md R10, the history of R21, and the inputs still to come. -/
structure State where
  /-- `FRAME[0..11]`, 12 x 8 bit (R11). -/
  mem : Memory
  /-- `SUMR`, 9 bit, the running sum (R12). -/
  sumr : BitVec 9
  /-- `CRCR`, 8 bit, the CRC register (R13). -/
  crcr : BitVec 8
  /-- `RES`, 8 bit, the result register (R14). -/
  res : BitVec 8
  /-- `PIN`, the output level, true is high (R15). -/
  pin : Bool
  /-- `BUSY` (R16). -/
  busy : Bool
  /-- `TXPOS`, 0 to 192, the ticks consumed by the transmission in progress (R17). -/
  txpos : Fin 193
  /-- `TCFG`, the shared timer's configuration (R18). -/
  tcfg : TimerCfg
  /-- `TSAVE`, the snapshot of it (R19). -/
  tsave : TimerCfg
  /-- `WAVE`, the history of levels since the last reset, oldest first (R21). -/
  wave : List Bool
  /-- For each `TX` since the last reset, the index in `WAVE` at which it started (R21). -/
  txStarts : List Nat
  /-- The inputs the environment has still to give, next first (R22, R25: chosen by host, timer and device). -/
  inputs : List Input
deriving DecidableEq, Repr

/-- Why a step can stop with a fault: never. The block raises no synchronous exception and no access can fault
(60_exceptions.md R135, 20_memory.md R39), so the type has no constructor. -/
inductive Fault where
deriving DecidableEq, Repr

/-- Why the model gives a command no meaning. All are safe: the block's command is not one the spec defines, and the
model goes nowhere from it. -/
inductive Refusal where
  /-- Raised by `exec` for an instruction with no meaning yet; none is left. -/
  | notModelled (mnemonic : String)
  /-- Raised by `issue` for bytes that spell no command (30_encoding.md R50, R53, U9). Safe. -/
  | undecodable (e : DecodeError)
  /-- Raised by `NSUM` and `CRC8` for a mask with any of bits 24 to 63 set (20_memory.md R33, U1). Safe. -/
  | maskBeyondFrame (mask : BitVec 64)
  /-- Raised by `SETCH` for a channel other than 1, 2 and 3 (41_frame_encoder.md R81, U3). Safe. -/
  | channelUndefined (a : BitVec 8)
  /-- Raised by `SETBAT` when `a[7:1]` is not zero (41_frame_encoder.md R85, U4). Safe. -/
  | batteryNotBoolean (a : BitVec 8)
deriving DecidableEq, Repr

/-- What a command or a step answers. -/
abbrev Result := Host.Outcome State Fault Refusal

/-- The state after reset for given parameters (70_reset_and_hazards.md R156): nothing listed in memory (the frame
reads as its reset contents, 20_memory.md R36), the line low, idle, the timer at `TCFG_RESET`, the history empty.
DESIGN CHOICE (logs 1, 2): `RES`, `SUMR`, `CRCR` are 0 and `TSAVE` is `TCFG_RESET`, where the spec gives no value. -/
def State.resetAt (p : Params) : State where
  mem := []
  sumr := 0
  crcr := 0
  res := 0
  pin := false
  busy := false
  txpos := 0
  tcfg := p.tcfgReset
  tsave := p.tcfgReset
  wave := []
  txStarts := []
  inputs := []

/-- The machine right after reset (70_reset_and_hazards.md R156), with no input given yet. -/
def State.reset : State := State.resetAt Config.params

end Sys2Proof.Machine
end

