-- ==== Sys2Proof/Machine/Ops.lean ====
section
/-! DEFINITION. The named operations every command is made of: reading and writing the frame buffer (20_memory.md R30 to
R37), acceptance (30_encoding.md R63), and the two events that reach the block from outside besides the tick: device
reset (70_reset_and_hazards.md R155) and the host timer step (10_state.md R28).

Taking an exception: the block has none to take and none to return from (60_exceptions.md R135, R142, R143). Its two
asynchronous events are the tick, `tick` in Transmitter.lean, and the reset, `deviceReset` below. -/

namespace Sys2Proof.Machine

/-! ## The frame buffer -/

/-- What an address that memory does not list reads as: the frame's contents after reset (20_memory.md R36). -/
def unlistedByte (p : Params) (j : Nat) : Byte :=
  match j with
  | 0 => 0xFF
  | 1 => 0xFF
  | 2 => 0x1A
  | 3 => 0x2D
  | 9 => p.b9Hi.setWidth 8 <<< 4
  | _ => 0x00

/-- `FRAME[j]` (00_scope.md R8). A byte address above 11 cannot be formed (20_memory.md R38): hence `Fin 12`. -/
def Memory.read (p : Params) : Memory → Fin 12 → Byte
  | [], j => unlistedByte p j.val
  | (a, b) :: m, j => if a = j.val then b else Memory.read p m j

/-- Lists `b` at `a`, keeping addresses rising. -/
def Memory.insert (a : Nat) (b : Byte) : Memory → Memory
  | [] => [(a, b)]
  | (a', b') :: m =>
    if a < a' then (a, b) :: (a', b') :: m
    else if a = a' then (a, b) :: m
    else (a', b') :: Memory.insert a b m

/-- `FRAME[j] <- b` (00_scope.md R8), in canonical form: a byte at its reset contents is not listed. -/
def Memory.write (p : Params) (m : Memory) (j : Fin 12) (b : Byte) : Memory :=
  if b = unlistedByte p j.val then m.filter (fun cell => cell.1 ≠ j.val) else Memory.insert j.val b m

/-- The canonical form: addresses 0 to 11 strictly rising, no byte at its reset contents. -/
def Memory.wf (p : Params) : Memory → Bool
  | [] => true
  | (a, b) :: m => decide (a < 12) && b != unlistedByte p a && m.all (fun cell => a < cell.1) && Memory.wf p m

/-- The frame buffer's contents as a value. -/
def State.frame (p : Params) (s : State) : Frame :=
  Memory.read p s.mem

/-- `FRAME[j] <- b` on a state. -/
def setByte (p : Params) (j : Fin 12) (b : Byte) (s : State) : State :=
  { s with mem := Memory.write p s.mem j b }

/-- `Rmw(j, own, v)`: only the owned bits of byte `j` change (20_memory.md R37). -/
def rmw (p : Params) (j : Fin 12) (own v : Byte) (s : State) : State :=
  setByte p j ((s.frame p j &&& ~~~own) ||| v) s

/-! ## Acceptance -/

/-- A command is accepted only when `BUSY = 0`; offered while `BUSY = 1` it is not taken, without error, effect or
queueing (30_encoding.md R63, U8). -/
def accept (s : State) (effect : Result) : Result :=
  if s.busy then .next s else effect

/-! ## Device reset and the host timer step -/

/-- The reset step: every state element goes to its reset value, the inputs still to come stay (they are the
environment's, 10_state.md R22; 70_reset_and_hazards.md R155, R158). -/
def deviceReset (p : Params) (s : State) : State :=
  { State.resetAt p with inputs := s.inputs }

/-- The host timer step `TCFG <- c`, enabled only while `BUSY = 0` (10_state.md R28). -/
def hostTimerStep (c : TimerCfg) (s : State) : State :=
  if s.busy then s else { s with tcfg := c }

end Sys2Proof.Machine
end

