-- ==== Sys2Proof/Machine/Encoder.lean ====
section
/-! DEFINITION. The ENCODER's commands: five setters, each a sequence of read-modify-writes into its own bits
(41_frame_encoder.md R80 to R85), and `FINAL` (R86); the predicate `Finalized` (R87) and the decoding functions of
R90. -/

namespace Sys2Proof.Machine

/-! ## The setters -/

/-- `SETCH a`: `Rmw(4, 0xF0, (1 << (a-1)) << 4)` (41_frame_encoder.md R81). -/
def setChannel (p : Params) (a : Byte) (s : State) : Result :=
  accept s <|
    if channelDefined a then .next (rmw p 4 0xF0 (nibbles (channelCode a) 0) s)
    else .refused (.channelUndefined a)

/-- `SETID a`: `Rmw(5, 0xFF, a)` (41_frame_encoder.md R82). -/
def setRollingId (p : Params) (a : Byte) (s : State) : Result :=
  accept s <| .next (rmw p 5 0xFF a s)

/-- The sign nibble: `SIGN_NEG` for a negative temperature, 0 otherwise (41_frame_encoder.md R83). -/
def signNibble (p : Params) (negative : Bool) : Nibble :=
  if negative then p.signNeg else 0

/-- The three read-modify-writes of `SETTEMP` (41_frame_encoder.md R83). -/
def writeTemperature (p : Params) (sm : BitVec 16) (s : State) : State :=
  let m := tempMagnitude sm
  rmw p 8 0x0F (nibbles 0 (signNibble p (tempSign sm) ||| hundredsField m))
    (rmw p 7 0xFF (nibbles (decimalDigit 2 m) (decimalDigit 1 m))
      (rmw p 6 0xF0 (nibbles (decimalDigit 0 m) 0) s))

/-- `SETTEMP sm` (41_frame_encoder.md R83). -/
def setTemperature (p : Params) (sm : BitVec 16) (s : State) : Result :=
  accept s <| .next (writeTemperature p sm s)

/-- The two read-modify-writes of `SETHUM` (41_frame_encoder.md R84). -/
def writeHumidity (p : Params) (a : Byte) (s : State) : State :=
  rmw p 9 0x0F (nibbles 0 (decimalDigit 1 a.toNat))
    (rmw p 8 0xF0 (nibbles (decimalDigit 0 a.toNat) 0) s)

/-- `SETHUM a` (41_frame_encoder.md R84). -/
def setHumidity (p : Params) (a : Byte) (s : State) : Result :=
  accept s <| .next (writeHumidity p a s)

/-- `SETBAT a`: `Rmw(6, LOWBAT_BITS, LOWBAT_BITS or 0)` (41_frame_encoder.md R85). -/
def setLowBattery (p : Params) (a : Byte) (s : State) : Result :=
  accept s <|
    if batteryDefined a then
      .next (rmw p 6 (p.lowbatBits.setWidth 8) (if a.getLsbD 0 then p.lowbatBits.setWidth 8 else 0) s)
    else .refused (.batteryNotBoolean a)

/-! ## FINAL -/

/-- The checksum half of `FINAL`, through `SUMR`. -/
def writeChecksum (p : Params) (s : State) : State :=
  setByte p 10 (nsum (s.frame p) p.sumMask) { s with sumr := nsumRegister (s.frame p) p.sumMask }

/-- The CRC half of `FINAL`, through `CRCR`. -/
def writeCrc (p : Params) (s : State) : State :=
  setByte p 11 (crc8 (s.frame p) p.crcMask p.crcInit) { s with crcr := crc8 (s.frame p) p.crcMask p.crcInit }

/-- `FINAL`: the checksum byte, then the CRC over the frame that holds it (41_frame_encoder.md R86). -/
def finalize (p : Params) (s : State) : Result :=
  accept s <| .next (writeCrc p (writeChecksum p s))

/-- `Finalized(FRAME)`, a predicate to evaluate and no state (41_frame_encoder.md R87, 10_state.md R23). -/
abbrev Finalized (p : Params) (F : Frame) : Prop :=
  F 10 = nsum F p.sumMask ∧ F 11 = crc8 F p.crcMask p.crcInit

/-! ## The setters as one family -/

/-- A setter for given parameters; the commands that are no setter do nothing here. Claims that speak of every
instantiation of the parameters use it (41_frame_encoder.md R87). -/
def setterCommand (p : Params) (i : Instr) (s : State) : Result :=
  match i with
  | .setch a => setChannel p a s
  | .setid a => setRollingId p a s
  | .settemp sm => setTemperature p sm s
  | .sethum a => setHumidity p a s
  | .setbat a => setLowBattery p a s
  | .nsum _ => .next s
  | .crc8 _ _ => .next s
  | .final => .next s
  | .tx => .next s

/-! ## The meanings -/

/-- `SETCH` on the hardware. -/
def execSetch (a : BitVec 8) (s : State) : Result := setChannel Config.params a s

/-- `SETID` on the hardware. -/
def execSetid (a : BitVec 8) (s : State) : Result := setRollingId Config.params a s

/-- `SETTEMP` on the hardware. -/
def execSettemp (sm : BitVec 16) (s : State) : Result := setTemperature Config.params sm s

/-- `SETHUM` on the hardware. -/
def execSethum (a : BitVec 8) (s : State) : Result := setHumidity Config.params a s

/-- `SETBAT` on the hardware. -/
def execSetbat (a : BitVec 8) (s : State) : Result := setLowBattery Config.params a s

/-- `FINAL` on the hardware. -/
def execFinal (s : State) : Result := finalize Config.params s

/-! ## Decoding functions, to state the round trip (41_frame_encoder.md R90) -/

/-- `DecTemp(FRAME)`: whether the temperature is negative, and its tenths. -/
def decTemp (F : Frame) : Bool × Nat :=
  ((F 8).extractLsb' 2 2 != 0,
    1000 * ((F 8).extractLsb' 0 2).toNat + 100 * ((F 7).extractLsb' 4 4).toNat
      + 10 * ((F 7).extractLsb' 0 4).toNat + ((F 6).extractLsb' 4 4).toNat)

/-- `DecHum(FRAME)`. -/
def decHum (F : Frame) : Nat :=
  10 * ((F 9).extractLsb' 0 4).toNat + ((F 8).extractLsb' 4 4).toNat

/-- `DecChan(FRAME)`: the `n` in 1..3 whose code the channel nibble is. -/
def decChan (F : Frame) : Option Nat :=
  [1, 2, 3].find? fun n => (F 4).extractLsb' 4 4 == (1 : Nibble) <<< (n - 1)

end Sys2Proof.Machine
end

