-- ==== Sys2Proof/Machine/Engine.lean ====
section
/-! DEFINITION. The ENGINE's commands `NSUM` and `CRC8` (40_checksum_engine.md R66, R68). They write `RES` and a working
register, and nothing else (R65). -/

namespace Sys2Proof.Machine

/-- `NSUM mask` for given parameters (40_checksum_engine.md R66). -/
def nsumCommand (p : Params) (mask : BitVec 64) (s : State) : Result :=
  accept s <|
    if maskDefined mask then
      .next { s with sumr := nsumRegister (s.frame p) mask, res := nsum (s.frame p) mask }
    else .refused (.maskBeyondFrame mask)

/-- `CRC8 init, mask` for given parameters (40_checksum_engine.md R68). -/
def crc8Command (p : Params) (init : Byte) (mask : BitVec 64) (s : State) : Result :=
  accept s <|
    if maskDefined mask then
      .next { s with crcr := crc8 (s.frame p) mask init, res := crc8 (s.frame p) mask init }
    else .refused (.maskBeyondFrame mask)

/-- `NSUM` on the hardware. -/
def execNsum (mask : BitVec 64) (s : State) : Result :=
  nsumCommand Config.params mask s

/-- `CRC8` on the hardware. -/
def execCrc8 (init : BitVec 8) (mask : BitVec 64) (s : State) : Result :=
  crc8Command Config.params init mask s

end Sys2Proof.Machine
end

