-- ==== Sys2Proof/Machine/Transmitter.lean ====
section
/-! DEFINITION. The TRANSMITTER: the line code (42_transmitter.md R105 to R107), the waveform of a frame (R111), the
command `TX` (R108) and the tick step (R109, R110). -/

namespace Sys2Proof.Machine

/-! ## The line code -/

/-- `HalfLevel(b, h)`: the bit in the first half, its complement in the second (42_transmitter.md R106). -/
def halfLevel (b secondHalf : Bool) : Bool :=
  if secondHalf then !b else b

/-- `TxBit(n) = FRAME[n div 8][n mod 8]`, least significant bit first, bytes in order (20_memory.md R31). -/
def txBit (F : Frame) (n : Fin 96) : Bool :=
  (F ⟨n.val / 8, by omega⟩).getLsbD (n.val % 8)

/-- The level of tick number `k`: `HalfLevel(TxBit(k div 2), k mod 2)` (42_transmitter.md R107). -/
def levelAt (F : Frame) (k : Fin 192) : Bool :=
  halfLevel (txBit F ⟨k.val / 2, by omega⟩) (k.val % 2 == 1)

/-- `Wave(F)`: 192 half-symbols, then low (42_transmitter.md R111). -/
def waveOf (F : Frame) : List Bool :=
  (List.finRange 192).map (levelAt F) ++ [false]

/-! ## TX and the tick step -/

/-- `TX`: borrow the timer and start; the line is not touched and nothing is emitted yet (42_transmitter.md R108,
R119). -/
def startTransmission (p : Params) (s : State) : State :=
  { s with
    tsave := s.tcfg
    tcfg := p.periodicCfg
    txpos := 0
    busy := true
    txStarts := s.txStarts ++ [s.wave.length] }

/-- A tick with `TXPOS = k <= 191`: emit one half-symbol (42_transmitter.md R109). -/
def emitHalfSymbol (p : Params) (s : State) (k : Fin 192) : State :=
  { s with
    pin := levelAt (s.frame p) k
    wave := s.wave ++ [levelAt (s.frame p) k]
    txpos := k.succ }

/-- The tick with `TXPOS = 192`: the line is forced low, the borrowed timer is given back (42_transmitter.md R110). -/
def endTransmission (s : State) : State :=
  { s with
    pin := false
    wave := s.wave ++ [false]
    tcfg := s.tsave
    txpos := 0
    busy := false }

/-- The tick step, enabled only while `BUSY = 1`: a tick while `BUSY = 0` has no effect (10_state.md R25,
60_exceptions.md R138, R139). -/
def tick (p : Params) (s : State) : State :=
  if s.busy then
    if h : s.txpos.val < 192 then emitHalfSymbol p s ⟨s.txpos.val, h⟩ else endTransmission s
  else s

/-- `TX` for given parameters (42_transmitter.md R108). -/
def transmit (p : Params) (s : State) : Result :=
  accept s <| .next (startTransmission p s)

/-- `TX` on the hardware. -/
def execTx (s : State) : Result := transmit Config.params s

end Sys2Proof.Machine
end

