-- ==== Sys2Proof/Machine/Dispatch.lean ====
section
/-! DEFINITION. The meaning of every command, one arm each (30_encoding.md R52). -/

namespace Sys2Proof.Machine

def exec (i : Instr) (s : State) : Host.Outcome State Fault Refusal :=
  match i with
  | .nsum mask => Sys2Proof.Machine.execNsum mask s
  | .crc8 init mask => Sys2Proof.Machine.execCrc8 init mask s
  | .setch a => Sys2Proof.Machine.execSetch a s
  | .setid a => Sys2Proof.Machine.execSetid a s
  | .settemp sm => Sys2Proof.Machine.execSettemp sm s
  | .sethum a => Sys2Proof.Machine.execSethum a s
  | .setbat a => Sys2Proof.Machine.execSetbat a s
  | .final => Sys2Proof.Machine.execFinal s
  | .tx => Sys2Proof.Machine.execTx s

end Sys2Proof.Machine
end

