-- ==== Sys2Proof/Machine/Events.lean ====
section
/-! DEFINITION. What one sample of the inputs does: the command port, and the four kinds of step with their priority
(10_state.md R25, 60_exceptions.md R140). -/

namespace Sys2Proof.Machine

/-- Bytes presented at the command port. Bytes that spell no command are refused when the port is ready, and like
every command not taken when it is not (30_encoding.md R50, R53, R63). -/
def issue (bytes : List Byte) (s : State) : Result :=
  match decode bytes with
  | .ok i => exec i s
  | .error e => accept s (.refused (.undecodable e))

/-- What the host does, when no reset and no enabled tick coincides with it (10_state.md R25, R28). -/
def hostAct (a : HostAct) (s : State) : Result :=
  match a with
  | .command bytes => issue bytes s
  | .setTimer c => .next (hostTimerStep c s)

/-- One input sample: reset wins over a tick and a command (60_exceptions.md R140), and, DESIGN CHOICE (log 21), over a host
timer step too, which R140 does not name: the host's write is lost; a tick is taken while `BUSY = 1`, when the
host has no step; while `BUSY = 0` the host acts and a tick has no effect (10_state.md R25, 60_exceptions.md R138). -/
def takeInput (x : Input) (s : State) : Result :=
  if x.reset then .next (deviceReset Config.params s)
  else if s.busy && x.tick then .next (tick Config.params s)
  else
    match x.host with
    | none => .next s
    | some a => hostAct a s

/-- The next input is taken off the list and acts. With no input left nothing happens: the block waits, low and idle or
at its last level (10_state.md R27; 42_transmitter.md R113, R118: no timeout of the model's own). -/
def takeNextInput (s : State) : Result :=
  match s.inputs with
  | [] => .next s
  | x :: rest => takeInput x { s with inputs := rest }

/-- Commands issued one after the other by the host, each complete before the next (20_memory.md R40, R41). A command
that starts a transmission leaves the block busy, and what is offered then is not taken (30_encoding.md R63). -/
def issueAll : List Instr → State → Result
  | [], s => .next s
  | i :: is, s =>
    match exec i s with
    | .next t => issueAll is t
    | .fault r => .fault r
    | .refused r => .refused r

/-- `s` with these bytes presented at the command port as its very next input, with no reset and no tick beside. -/
def presentCommand (bytes : List Byte) (s : State) : State :=
  { s with inputs := { host := some (.command bytes) } :: s.inputs }

end Sys2Proof.Machine
end

