-- ==== Sys2Proof/Machine/Step.lean ====
section
/-! DEFINITION. One step of the machine: one input sample is consumed (10_state.md R25). -/

namespace Sys2Proof.Machine

/-- One step. The block fetches no instruction (10_state.md R17): it takes the next input. -/
def step (s : State) : Host.Outcome State Fault Refusal :=
  takeNextInput s

/-- `s` with the command of a row's word presented as the very next input (log 8: a command is issued by the host
from outside; this stands for that). -/
def State.withFetchWord (s : State) (nbits w : Nat) : State :=
  presentCommand (tableWordBytes nbits w) s

end Sys2Proof.Machine
end

