-- ==== Sys2Proof/Machine/HostPrograms.lean ====
section
/-! DEFINITION. The host's side of the command stream: the pseudo-commands and their expansions (30_encoding.md R62,
41_frame_encoder.md R89, 42_transmitter.md R114), and the assembler syntax the spec writes commands in (R61). -/

namespace Sys2Proof.Machine

/-- A number as the host holds it: a rational, or no number (30_encoding.md R60; U6: a NaN or an infinity). -/
inductive HostNumber where
  | rational (q : ℚ)
  | nonNumber
deriving DecidableEq, Repr

/-- `SETTEMPF t = SETTEMP TempOperand(t)`; no expansion where no operand exists (30_encoding.md R62, U6). -/
def settempf (t : HostNumber) : Option Instr :=
  match t with
  | .rational q => (tempOperand q).map Instr.settemp
  | .nonNumber => none

/-- `SETTEMPF` as a host computes it whose number format rounds: with its own `Scale10` (30_encoding.md R60). -/
def settempfScaled (p : Params) (t : HostNumber) : Option Instr :=
  match t with
  | .rational q => (packTemp (p.scale10 q).1 (p.scale10 q).2).map Instr.settemp
  | .nonNumber => none

/-- `SETHUMF h = SETHUM HumOperand(h)`; no expansion where no operand exists (30_encoding.md R62, U6). -/
def sethumf (h : HostNumber) : Option Instr :=
  match h with
  | .rational q => (humOperand q).map Instr.sethum
  | .nonNumber => none

/-- `ENCODE id, ch, t, h, b` (30_encoding.md R62, 41_frame_encoder.md R89). -/
def encodeReport (id ch : Byte) (t h : HostNumber) (b : Bool) : Option (List Instr) :=
  match settempf t, sethumf h with
  | some st, some sh =>
    some [.setid id, .setch ch, st, sh, .setbat (if b then 1 else 0), .final]
  | _, _ => none

/-- One thing the host does in a report. -/
inductive HostStep where
  | issue (i : Instr)
  /-- `PAUSE d`: no command; the host waits for `d` seconds with `BUSY = 0` (30_encoding.md R62). -/
  | pause (d : ℚ)
deriving DecidableEq, Repr

/-- `TX2 = TX; PAUSE T_PAUSE; TX` (42_transmitter.md R114). -/
def tx2 (p : Params) : List HostStep :=
  [.issue .tx, .pause p.tPause, .issue .tx]

/-- One report: all setters, `FINAL`, then the frame twice (70_reset_and_hazards.md R168). -/
def report (p : Params) (id ch : Byte) (t h : HostNumber) (b : Bool) : Option (List HostStep) :=
  (encodeReport id ch t h b).map fun is => is.map HostStep.issue ++ tx2 p

/-- The inputs of one host step on an environment that ticks whenever it must and does nothing else: a `TX` is
followed by its 193 ticks, a pause by nothing, the model having no time (42_transmitter.md R111, R114). It is ONE
schedule of the many the environment may choose. -/
def promptInputs : HostStep → List Input
  | .issue .tx => { host := some (.command (encode .tx)) } :: List.replicate 193 { tick := true }
  | .issue i => [{ host := some (.command (encode i)) }]
  | .pause _ => []

/-! ## Assembler syntax (30_encoding.md R61) -/

/-- A number in hexadecimal as 00_scope.md R8 writes it. -/
def hexText (n : Nat) : String :=
  "0x" ++ (String.ofList (Nat.toDigits 16 n)).toUpper

/-- A signed temperature in tenths; `-0` is legal (30_encoding.md R61). -/
def tenthsText (sm : BitVec 16) : String :=
  (if tempSign sm then "-" else "+") ++ Nat.repr (tempMagnitude sm)

/-- A command as the spec writes it (30_encoding.md R61). -/
def assembly : Instr → String
  | .nsum mask => "NSUM " ++ hexText mask.toNat
  | .crc8 init mask => "CRC8 " ++ hexText init.toNat ++ ", " ++ hexText mask.toNat
  | .setch a => "SETCH " ++ Nat.repr a.toNat
  | .setid a => "SETID " ++ hexText a.toNat
  | .settemp sm => "SETTEMP " ++ tenthsText sm
  | .sethum a => "SETHUM " ++ Nat.repr a.toNat
  | .setbat a => "SETBAT " ++ Nat.repr a.toNat
  | .final => "FINAL"
  | .tx => "TX"

end Sys2Proof.Machine
end

