-- ==== Sys2Proof/Machine/Ports.lean ====
section
/-! DEFINITION. The block's outputs as functions of its state and input sample (30_encoding.md R64), and two views of
the state the spec names: whether the timer ticks (60_exceptions.md R138) and the power states (R148). Nothing in the
machine reads them. -/

namespace Sys2Proof.Machine

/-- The write the block makes to the timer's configuration (`tcfg_we` with `tcfg_out`) when it takes this sample: at
the acceptance of `TX` and at the last tick, none otherwise. A device reset reaches the timer by itself and a host
timer step is the host's (10_state.md R10, R18, R28). -/
def timerWrite (p : Params) (x : Input) (s : State) : Option TimerCfg :=
  if x.reset then none
  else if s.busy then (if x.tick && s.txpos.val == 192 then some s.tsave else none)
  else
    match x.host with
    | some (.command bytes) =>
      match decode bytes with
      | .ok .tx => some p.periodicCfg
      | _ => none
    | _ => none

/-- The output ports (30_encoding.md R64). -/
structure Outputs where
  /-- `cmd_ready = ~BUSY`. -/
  cmdReady : Bool
  /-- `res`, `RES`. -/
  res : Byte
  /-- `rf`, `PIN`. -/
  rf : Bool
  /-- `tcfg_we` and `tcfg_out`. -/
  timerWrite : Option TimerCfg
deriving DecidableEq, Repr

/-- The outputs while this sample stands at the inputs (30_encoding.md R64). -/
def outputs (p : Params) (x : Input) (s : State) : Outputs where
  cmdReady := !s.busy
  res := s.res
  rf := s.pin
  timerWrite := timerWrite p x s

/-- TICK is enabled exactly while `TCFG = PERIODIC_CFG`; there is no mask bit and nothing is pending
(60_exceptions.md R138). -/
def timerTicks (p : Params) (s : State) : Bool :=
  s.tcfg == p.periodicCfg

/-- What the block is doing between two steps (60_exceptions.md R148). The spec's "active" is the instant of a step. -/
inductive PowerState where
  /-- `BUSY = 0`: the line is low and whatever sleep the device enters is the host's. -/
  | idle
  /-- Between ticks while `BUSY = 1`; left by a tick or a reset and by nothing else. -/
  | waiting
deriving DecidableEq, Repr

/-- The power state between two steps (60_exceptions.md R148). -/
def powerState (s : State) : PowerState :=
  if s.busy then .waiting else .idle

end Sys2Proof.Machine
end

