-- ==== Sys2Proof/WellFormed.lean ====
section
/-! DEFINITION. Which commands have a meaning: the operand values a format can carry but a command does not define are
ill-formed (30_encoding.md R53, R56, R58; 20_memory.md R33). A meaning refuses exactly these. -/

namespace Sys2Proof

/-- The operands are ones the command defines. -/
def Instr.wellFormed : Instr → Bool
  | .nsum mask => Machine.maskDefined mask
  | .crc8 _ mask => Machine.maskDefined mask
  | .setch a => Machine.channelDefined a
  | .setid _ => true
  | .settemp _ => true
  | .sethum _ => true
  | .setbat a => Machine.batteryDefined a
  | .final => true
  | .tx => true

end Sys2Proof
end

