-- ==== Sys2Proof/Safety.lean ====
section
/-! DEFINITION. The terms claims are written in: what a command may change, the invariants of 10_state.md R24, when a
run is over (R27), which commands own which bits (20_memory.md R35), and second forms of the digests to compare
with. -/

namespace Sys2Proof.Machine

/-! ## Frames of commands -/

/-- The two states differ at most in the frame buffer (41_frame_encoder.md R80). -/
def ChangesOnlyFrame (s t : State) : Prop :=
  t = { s with mem := t.mem }

/-- The frame buffer as the hardware's parameters read it. -/
def State.bytes (s : State) : Frame := s.frame Config.params

/-- The bits of byte `j` that a command may change: the owner column of 20_memory.md R35. -/
def ownedBits (p : Params) : Instr → Fin 12 → Byte
  | .setch _, 4 => 0xF0
  | .setid _, 5 => 0xFF
  | .settemp _, 6 => 0xF0
  | .settemp _, 7 => 0xFF
  | .settemp _, 8 => 0x0F
  | .sethum _, 8 => 0xF0
  | .sethum _, 9 => 0x0F
  | .setbat _, 6 => p.lowbatBits.setWidth 8
  | .final, 10 => 0xFF
  | .final, 11 => 0xFF
  | _, _ => 0

/-- The five setters, by field (41_frame_encoder.md R91); none for the other commands. -/
def setterField : Instr → Option Nat
  | .setch _ => some 0
  | .setid _ => some 1
  | .settemp _ => some 2
  | .sethum _ => some 3
  | .setbat _ => some 4
  | _ => none

/-! ## Invariants (10_state.md R24) -/

/-- I-c: the constant bits of the frame (20_memory.md R35). -/
structure ConstantBits (p : Params) (F : Frame) : Prop where
  preamble0 : F 0 = 0xFF
  preamble1 : F 1 = 0xFF
  sync : F 2 = 0x1A
  identifier : F 3 = 0x2D
  identifierEnd : (F 4).extractLsb' 0 4 = 0
  constantNibble : (F 9).extractLsb' 4 4 = p.b9Hi

/-- The invariants I-a to I-d. `TXPOS <= 192` holds by the type of the field. -/
structure Inv (p : Params) (s : State) : Prop where
  /-- I-a: an idle block keeps the line low and its position at 0. -/
  idle : s.busy = false → s.pin = false ∧ s.txpos = 0
  /-- I-b: during a transmission the timer is in its periodic configuration. -/
  borrowed : s.busy = true → s.tcfg = p.periodicCfg
  /-- I-c. -/
  constants : ConstantBits p (s.frame p)
  /-- I-d: the flag nibble's bits that the flag does not own are 0. -/
  flags : (s.frame p 6).extractLsb' 0 4 &&& ~~~p.lowbatBits = 0

/-! ## Runs -/

/-- A sample in which nobody does anything. -/
def Input.quiet : Input := {}

/-- A command of these bytes, alone. -/
def Input.command (bytes : List Byte) : Input := { host := some (.command bytes) }

/-- Whether a sample presents a command. -/
def Input.hasCommand (x : Input) : Bool :=
  match x.host with
  | some (.command _) => true
  | _ => false

/-- The run is over: no command is left to accept and no transmission is in flight (10_state.md R27). -/
def runOver (s : State) : Bool :=
  !s.busy && s.inputs.all fun x => !x.hasCommand

/-- Samples during which a transmission runs to its end: no reset, 193 ticks, the last sample one of them. What the
host does meanwhile is any list of acts (42_transmitter.md R111, R115). -/
def transmissionInputs (xs : List Input) : Prop :=
  (∀ x ∈ xs, x.reset = false) ∧ xs.countP (·.tick) = 193 ∧ xs.getLast?.map (·.tick) = some true

/-! ## Second forms of the digests -/

/-- The plain integer sum of the selected nibbles (40_checksum_engine.md R67, `T`). -/
def nibbleTotal (F : Frame) (mask : BitVec 64) : Nat :=
  ((List.finRange 24).map fun i =>
    if mask.getLsbD i.val then (F ⟨i.val / 2, by omega⟩).toNat / 16 ^ (i.val % 2) % 16 else 0).sum

/-- The closed form of the end-around-carry sum (40_checksum_engine.md R67). -/
def nsumClosedForm (T : Nat) : Nat :=
  if T = 0 then 0 else (T - 1) % 255 + 1

end Sys2Proof.Machine
end

