-- ==== Sys2Proof/Certificates/Slice0/Obligations.lean ====
section
/-! DEFINITION. What is claimed of the machine, from the numbered rules of spec/. `State.bytes` is the frame buffer, byte
by byte; every claim about it says what EVERY byte holds afterwards. -/

open Sys2Proof Sys2Proof.Machine

/-! ## Commands as bytes -/

/-- Decoding the bytes of a command gives that command back, whatever its operands (30_encoding.md R50 to R52). -/
def Obligations.DecodeInvertsEncode : Prop :=
  ∀ i : Instr, decode (encode i) = .ok i

/-- Bytes that decode are exactly the bytes of the command they decode to: every command has one spelling
(30_encoding.md R50; that surplus bytes are rejected is the model's reading, log 5). -/
def Obligations.EncodeInvertsDecode : Prop :=
  ∀ (bytes : List Byte) (i : Instr), decode bytes = .ok i → encode i = bytes

/-- A command's word as the opcode table numbers its bits decodes to the command (30_encoding.md R51). -/
def Obligations.TableWordsDecode : Prop :=
  ∀ i : Instr, decodeTableWord (8 * (encode i).length) (leNat (encode i)) = some i

/-- A command cut short, or with bytes after it, is rejected by name. The model's reading of 30_encoding.md R50 (the
length is fixed by the opcode byte alone, a command is presented whole), log 5. -/
def Obligations.WrongLengthsAreRejected : Prop :=
  ∀ (i : Instr) (opcode : Byte) (operands : List Byte), encode i = opcode :: operands →
    (∀ n, n < operands.length → decode (opcode :: operands.take n) = .error (.truncated opcode)) ∧
    (∀ more : List Byte, more ≠ [] → decode (opcode :: operands ++ more) = .error (.overlong opcode))

/-- Every opcode byte other than the nine is rejected, and an idle block refuses it (30_encoding.md R53). -/
def Obligations.ReservedOpcodesAreRejected : Prop :=
  ∀ (opcode : Byte) (operands : List Byte),
    opcode ∉ ([0x01, 0x02, 0x10, 0x11, 0x12, 0x13, 0x14, 0x15, 0x20] : List Byte) →
      decode (opcode :: operands) = .error (.reservedOpcode opcode) ∧
      ∀ s : State, s.busy = false →
        issue (opcode :: operands) s = .refused (.undecodable (.reservedOpcode opcode))

/-- Ten command words of the spec, written out, and what they spell (95_test_vectors.md section 2.12). -/
def Obligations.SpecWordsDecode : Prop :=
  decode [0x01, 0xF0, 0xFF, 0x0F, 0, 0, 0, 0, 0] = .ok (.nsum 0xFFFF0) ∧
  decode [0x02, 0x09, 0xF0, 0xFF, 0x3F, 0, 0, 0, 0, 0] = .ok (.crc8 0x09 0x3FFFF0) ∧
  decode [0x10, 0x03] = .ok (.setch 3) ∧
  decode [0x11, 0xBB] = .ok (.setid 0xBB) ∧
  decode [0x12, 0xE3, 0x00] = .ok (.settemp 227) ∧
  decode [0x12, 0x35, 0x80] = .ok (.settemp 0x8035) ∧
  decode [0x13, 0x1E] = .ok (.sethum 30) ∧
  decode [0x14, 0x01] = .ok (.setbat 1) ∧
  decode [0x15] = .ok .final ∧
  decode [0x20] = .ok .tx

/-! ## Steps and acceptance -/

/-- When the next input presents a command, with no reset beside it and no tick that an ongoing transmission takes, the
step is exactly the command's meaning on the state with that input consumed. Inputs as a list in the state are the
model's own, log 9. -/
def Obligations.StepRunsTheDecodedCommand : Prop :=
  ∀ (s : State) (x : Input) (rest : List Input) (bytes : List Byte) (i : Instr),
    s.inputs = x :: rest → x.reset = false → (s.busy && x.tick) = false →
    x.host = some (.command bytes) → decode bytes = .ok i →
      step s = exec i { s with inputs := rest }

/-- A row's word put where the step reads its next command is run by the next step, and leaves no trace. The placing is
the model's own, log 8. -/
def Obligations.FetchWordIsRunNext : Prop :=
  ∀ (s : State) (nbits w : Nat) (i : Instr), decodeTableWord nbits w = some i →
    step (s.withFetchWord nbits w) = exec i s

/-- While `BUSY = 1` no command is taken: it has no effect, gives no error and is not queued, and the step that offers
it only consumes the offer (30_encoding.md R63, 93_implementation_defined.md U8; the consumed offer is the model's own,
log 10). -/
def Obligations.BusyBlockTakesNoCommand : Prop :=
  (∀ (i : Instr) (s : State), s.busy = true → exec i s = .next s) ∧
  ∀ (s : State) (x : Input) (rest : List Input) (bytes : List Byte),
    s.busy = true → s.inputs = x :: rest → x.reset = false → x.tick = false → x.host = some (.command bytes) →
      step s = .next { s with inputs := rest }

/-- An idle block completes a command exactly when its operands are ones the command defines (60_exceptions.md R135: every
accepted command completes; an undefined operand value is not a command). -/
def Obligations.CommandsCompleteExactlyWhenWellFormed : Prop :=
  ∀ (i : Instr) (s : State), s.busy = false → ((∃ t, exec i s = .next t) ↔ i.wellFormed = true)

/-- A step is refused only where an idle block is given bytes that spell no command, or a command with operands it does
not define (30_encoding.md R53, 60_exceptions.md R135). -/
def Obligations.OnlyNonCommandsAreRefused : Prop :=
  ∀ (s : State) (r : Refusal), step s = .refused r →
    s.busy = false ∧ ∃ x rest bytes, s.inputs = x :: rest ∧ x.reset = false ∧ x.host = some (.command bytes) ∧
      ((∃ e, decode bytes = .error e ∧ r = .undecodable e) ∨ (∃ i, decode bytes = .ok i ∧ i.wellFormed = false))

/-- With no input given, nothing happens: the model adds no step of its own (the model's reading of 10_state.md R27 and
42_transmitter.md R118: log 7). -/
def Obligations.NoInputChangesNothing : Prop :=
  ∀ s : State, s.inputs = [] → step s = .next s

/-- When the run is over (no command left, no transmission in flight), an input without a reset leaves it over and
changes nothing but the timer's configuration, and that only where the host acts (10_state.md R27; inputs as a list are
the model's own, log 9). -/
def Obligations.FinishedRunStaysQuiescent : Prop :=
  ∀ (s : State) (x : Input) (rest : List Input), runOver s = true → s.inputs = x :: rest → x.reset = false →
    ∃ t, step s = .next t ∧ runOver t = true ∧ t = { s with inputs := rest, tcfg := t.tcfg } ∧
      (x.host = none → t.tcfg = s.tcfg)

/-! ## ENGINE -/

/-- The folded nibble sum in closed form, its relation to the plain sum, and its independence of the order
(40_checksum_engine.md R67). -/
def Obligations.NibbleSumClosedForm : Prop :=
  (∀ (F : Frame) (mask : BitVec 64),
    nibbleTotal F mask ≤ 360 ∧
    (nsum F mask).toNat = nsumClosedForm (nibbleTotal F mask) ∧
    (nibbleTotal F mask ≤ 255 →
      (nsum F mask).toNat = nibbleTotal F mask ∧ (nsum F mask).toNat = nibbleTotal F mask % 256) ∧
    (256 ≤ nibbleTotal F mask →
      (nsum F mask).toNat = nibbleTotal F mask - 255 ∧ (nsum F mask).toNat = nibbleTotal F mask % 256 + 1) ∧
    (∀ order : List (Fin 24), order.Perm (selected mask) →
      (order.foldl (fun sumr i => addFold sumr (nib F i)) 0).setWidth 8 = nsum F mask) ∧
    ((selected mask).length ≤ 17 → nibbleTotal F mask ≤ 255)) ∧
  (selected Params.p0.sumMask).length = 16

/-- `NSUM` on an idle block completes: `RES` gets the folded sum, and besides `SUMR` nothing else changes
(40_checksum_engine.md R65, R66, R67). That `SUMR` holds the same value between commands, its overflow bit clear, is the
model's choice, log 13. -/
def Obligations.NsumWritesFoldedSum : Prop :=
  ∀ (s : State) (mask : BitVec 64), s.busy = false → (∀ i, 24 ≤ i → mask.getLsbD i = false) →
    ∃ t, exec (.nsum mask) s = .next t ∧
      t.res.toNat = nsumClosedForm (nibbleTotal s.bytes mask) ∧
      t.sumr = t.res.setWidth 9 ∧
      t = { s with sumr := t.sumr, res := t.res }

/-- One step of the CRC register in arithmetic, with the rule's examples: the bit enters at the bottom, and where a 1
leaves at the top the constant 7 is added (40_checksum_engine.md R69). -/
def Obligations.CrcShiftEntersBitAndFoldsTopBit : Prop :=
  (∀ (r : Byte) (b : Bool),
    (crcShift r b).toNat =
      if 128 ≤ r.toNat then (2 * r.toNat + b.toNat - 256) ^^^ 7 else 2 * r.toNat + b.toNat) ∧
  crcShift 0x09 true = 0x13 ∧ crcShift 0x80 false = 0x07 ∧ crcShift 0x80 true = 0x06 ∧
  crcShift 0xFF false = 0xF9 ∧ crcShift 0x7F true = 0xFF

/-- With no nibble selected the CRC is the initial value through eight zero bits (40_checksum_engine.md R72). -/
def Obligations.EmptyMaskCrcIsFlush : Prop :=
  (∀ (F : Frame) (init : Byte), crc8 F 0 init = crcFlush init) ∧
  crcFlush 0x00 = 0x00 ∧ crcFlush 0x01 = 0x07 ∧ crcFlush 0x02 = 0x0E ∧
  crcFlush 0x09 = 0x3F ∧ crcFlush 0x80 = 0x89 ∧ crcFlush 0xFF = 0xF3

/-- The CRC with its flush is the conventional loop, which needs none, from the flushed initial value
(40_checksum_engine.md R70). -/
def Obligations.CrcEqualsConventionalLoop : Prop :=
  ∀ (F : Frame) (mask : BitVec 64) (init : Byte), crc8 F mask init = crcConv F mask (crcFlush init)

/-- The CRC is affine in the initial value and in the nibbles, and a bijection of the initial value
(40_checksum_engine.md R73). -/
def Obligations.CrcIsAffineAndBijective : Prop :=
  (∀ (F G : Frame) (mask mask' : BitVec 64) (a b a' b' : Byte),
    (selected mask).length = (selected mask').length → a ^^^ b = a' ^^^ b' →
      crc8 F mask a ^^^ crc8 F mask b = crc8 G mask' a' ^^^ crc8 G mask' b') ∧
  (∀ (F G H : Frame) (mask : BitVec 64) (init : Byte),
    crc8 F mask init ^^^ crc8 G mask init ^^^ crc8 H mask init
      = crc8 (fun j => F j ^^^ G j ^^^ H j) mask init) ∧
  (∀ (F : Frame) (mask : BitVec 64), Function.Bijective (crc8 F mask))

/-- `CRC8` on an idle block completes: `RES` gets the CRC (in its conventional form), and besides `CRCR` nothing else
changes (40_checksum_engine.md R65, R68, R70). That `CRCR` holds it between commands is the model's choice, log 13. -/
def Obligations.Crc8WritesCrc : Prop :=
  ∀ (s : State) (init : Byte) (mask : BitVec 64), s.busy = false → (∀ i, 24 ≤ i → mask.getLsbD i = false) →
    ∃ t, exec (.crc8 init mask) s = .next t ∧
      t.res = crcConv s.bytes mask (crcFlush init) ∧
      t.crcr = t.res ∧
      t = { s with crcr := t.crcr, res := t.res }

/-- A mask with any of bits 24 to 63 set is refused by an idle block, and no parameter is such a mask
(20_memory.md R33). -/
def Obligations.MasksBeyondTheFrameAreRefused : Prop :=
  (∀ (s : State) (init : Byte) (mask : BitVec 64) (i : Nat), s.busy = false → 24 ≤ i → mask.getLsbD i = true →
    exec (.nsum mask) s = .refused (.maskBeyondFrame mask) ∧
    exec (.crc8 init mask) s = .refused (.maskBeyondFrame mask)) ∧
  ∀ (p : Params) (i : Nat), 24 ≤ i → p.sumMask.getLsbD i = false ∧ p.crcMask.getLsbD i = false

/-- A digest depends on the selected nibbles only (00_scope.md R9, 40_checksum_engine.md R65). -/
def Obligations.DigestsReadOnlySelectedNibbles : Prop :=
  ∀ (F G : Frame) (mask : BitVec 64) (init : Byte),
    (∀ i : Fin 24, mask.getLsbD i.val = true → nib F i = nib G i) →
      nsum F mask = nsum G mask ∧ crc8 F mask init = crc8 G mask init

/-! ## ENCODER: the setters -/

/-- `SETCH`, bytes 0x10 and the operand: for 1 to 3 the one-hot code stands in byte 4's high nibble and nothing else
changes; any other operand is refused (41_frame_encoder.md R81). -/
def Obligations.SetchWritesOneHotCode : Prop :=
  (∀ a : Byte, encode (.setch a) = [0x10, a]) ∧
  ∀ (s : State) (a : Byte), s.busy = false →
    (1 ≤ a.toNat → a.toNat ≤ 3 → ∃ t, exec (.setch a) s = .next t ∧
      ((t.bytes 4).extractLsb' 4 4).toNat = 2 ^ (a.toNat - 1) ∧
      (t.bytes 4).extractLsb' 0 4 = (s.bytes 4).extractLsb' 0 4 ∧
      (∀ j, j ≠ 4 → t.bytes j = s.bytes j) ∧ ChangesOnlyFrame s t) ∧
    (a.toNat = 0 ∨ 4 ≤ a.toNat → exec (.setch a) s = .refused (.channelUndefined a))

/-- `SETID`, bytes 0x11 and the operand: byte 5 is the operand, bit for bit, and nothing else changes
(41_frame_encoder.md R82). -/
def Obligations.SetidStoresOperand : Prop :=
  (∀ a : Byte, encode (.setid a) = [0x11, a]) ∧
  ∀ (s : State) (a : Byte), s.busy = false →
    ∃ t, exec (.setid a) s = .next t ∧ (∀ j, t.bytes j = if j = 5 then a else s.bytes j) ∧ ChangesOnlyFrame s t

/-- `SETTEMP`, bytes 0x12 and the operand, low byte first: the four digits and the sign stand in their fields for every
operand, the neighbours in bytes 6 and 8 are kept, and nothing else changes (41_frame_encoder.md R83; above 199.9
degrees the digits are the spec's own choice, R88). -/
def Obligations.SettempPacksDigitsAndSign : Prop :=
  (∀ sm : BitVec 16, encode (.settemp sm) = [0x12, sm.extractLsb' 0 8, sm.extractLsb' 8 8]) ∧
  ∀ (s : State) (sm : BitVec 16) (m : Nat), s.busy = false → m = sm.toNat % 32768 →
    ∃ t, exec (.settemp sm) s = .next t ∧
      ((t.bytes 6).extractLsb' 4 4).toNat = m % 10 ∧
      ((t.bytes 7).extractLsb' 0 4).toNat = m / 10 % 10 ∧
      ((t.bytes 7).extractLsb' 4 4).toNat = m / 100 % 10 ∧
      ((t.bytes 8).extractLsb' 0 2).toNat = m / 1000 % 4 ∧
      (t.bytes 8).extractLsb' 2 2
        = (if 32768 ≤ sm.toNat then Config.params.signNeg.extractLsb' 2 2 else 0) ∧
      (t.bytes 6).extractLsb' 0 4 = (s.bytes 6).extractLsb' 0 4 ∧
      (t.bytes 8).extractLsb' 4 4 = (s.bytes 8).extractLsb' 4 4 ∧
      (∀ j, j ≠ 6 → j ≠ 7 → j ≠ 8 → t.bytes j = s.bytes j) ∧ ChangesOnlyFrame s t

/-- `SETHUM`, bytes 0x13 and the operand: the two digits stand in their fields for every operand, the neighbours in
bytes 8 and 9 are kept, and nothing else changes (41_frame_encoder.md R84; above 100 the digits are the spec's own
choice, R88). -/
def Obligations.SethumPacksDigits : Prop :=
  (∀ a : Byte, encode (.sethum a) = [0x13, a]) ∧
  ∀ (s : State) (a : Byte), s.busy = false →
    ∃ t, exec (.sethum a) s = .next t ∧
      ((t.bytes 8).extractLsb' 4 4).toNat = a.toNat % 10 ∧
      ((t.bytes 9).extractLsb' 0 4).toNat = a.toNat / 10 % 10 ∧
      (t.bytes 8).extractLsb' 0 4 = (s.bytes 8).extractLsb' 0 4 ∧
      (t.bytes 9).extractLsb' 4 4 = (s.bytes 9).extractLsb' 4 4 ∧
      (∀ j, j ≠ 8 → j ≠ 9 → t.bytes j = s.bytes j) ∧ ChangesOnlyFrame s t

/-- `SETBAT`, bytes 0x14 and the operand: operand 1 sets the flag's bits and operand 0 clears them, every other bit is
kept; any other operand is refused (41_frame_encoder.md R85). -/
def Obligations.SetbatSetsFlagBits : Prop :=
  (∀ a : Byte, encode (.setbat a) = [0x14, a]) ∧
  ∀ (s : State) (a : Byte), s.busy = false →
    (a.toNat ≤ 1 → ∃ t, exec (.setbat a) s = .next t ∧
      (t.bytes 6).extractLsb' 0 4 &&& Config.params.lowbatBits
        = (if a.toNat = 1 then Config.params.lowbatBits else 0) ∧
      (t.bytes 6).extractLsb' 0 4 &&& ~~~Config.params.lowbatBits
        = (s.bytes 6).extractLsb' 0 4 &&& ~~~Config.params.lowbatBits ∧
      (t.bytes 6).extractLsb' 4 4 = (s.bytes 6).extractLsb' 4 4 ∧
      (∀ j, j ≠ 6 → t.bytes j = s.bytes j) ∧ ChangesOnlyFrame s t) ∧
    (2 ≤ a.toNat → exec (.setbat a) s = .refused (.batteryNotBoolean a))

/-- No command changes a bit of the frame that it does not own, whatever the state and the operands (20_memory.md R35,
R37). -/
def Obligations.CommandsKeepBitsTheyDoNotOwn : Prop :=
  ∀ (i : Instr) (s t : State) (j : Fin 12), exec i s = .next t →
    t.bytes j &&& ~~~(ownedBits Config.params i j) = s.bytes j &&& ~~~(ownedBits Config.params i j)

/-- Setters of different fields own disjoint bits, and the frame after any sequence of setters on an idle block depends
only on the last command given for each of the five fields; so any two setters of different fields commute, each is
idempotent, and a later one replaces an earlier (41_frame_encoder.md R91). -/
def Obligations.FrameDependsOnLastSetterOfEachField : Prop :=
  (∀ (i k : Instr) (j : Fin 12), (setterField i).isSome → (setterField k).isSome → setterField i ≠ setterField k →
    ownedBits Config.params i j &&& ownedBits Config.params k j = 0) ∧
  ∀ (s : State) (is js : List Instr), s.busy = false →
    (∀ i ∈ is ++ js, (setterField i).isSome ∧ i.wellFormed = true) →
    (∀ f, (is.filter fun i => setterField i == some f).getLast?
      = (js.filter fun i => setterField i == some f).getLast?) →
    ∃ t u, issueAll is s = .next t ∧ issueAll js s = .next u ∧ t.bytes = u.bytes ∧
      ChangesOnlyFrame s t ∧ ChangesOnlyFrame s u

/-- Decoding the packed digits gives back the temperature up to 399.9, the humidity up to 99 and the channel
(41_frame_encoder.md R90; from 200.0 on the temperature is beyond D0's range, R88). -/
def Obligations.PackedFieldsRoundTrip : Prop :=
  ∀ s : State, s.busy = false →
    (∀ (neg : Bool) (m : Nat), m ≤ 3999 →
      ∃ t, exec (.settemp (BitVec.ofBool neg ++ BitVec.ofNat 15 m)) s = .next t ∧ decTemp t.bytes = (neg, m)) ∧
    (∀ r : Nat, r ≤ 99 → ∃ t, exec (.sethum (BitVec.ofNat 8 r)) s = .next t ∧ decHum t.bytes = r) ∧
    (∀ n : Nat, 1 ≤ n → n ≤ 3 →
      ∃ t, exec (.setch (BitVec.ofNat 8 n)) s = .next t ∧ decChan t.bytes = some n)

/-! ## ENCODER: FINAL -/

/-- `FINAL` on an idle block completes: byte 10 is the checksum of the frame, byte 11 the CRC of the frame with that
checksum in place, and besides the two working registers nothing else changes. Where the masks do not cover the bytes
it writes, `FINAL` is idempotent (41_frame_encoder.md R86). -/
def Obligations.FinalWritesChecksumThenCrc : Prop :=
  (∀ s : State, s.busy = false →
    ∃ t, exec .final s = .next t ∧
      t.bytes 10 = nsum s.bytes Config.params.sumMask ∧
      t.bytes 11 = crc8 (fun j => if j = 10 then nsum s.bytes Config.params.sumMask else s.bytes j)
        Config.params.crcMask Config.params.crcInit ∧
      (∀ j, j ≠ 10 → j ≠ 11 → t.bytes j = s.bytes j) ∧
      t = { s with mem := t.mem, sumr := t.sumr, crcr := t.crcr }) ∧
  ∀ (p : Params) (s : State), s.busy = false →
    (∀ i, 20 ≤ i → p.sumMask.getLsbD i = false) → (∀ i, 22 ≤ i → p.crcMask.getLsbD i = false) →
      ∃ t u, finalize p s = .next t ∧ finalize p t = .next u ∧ u.frame p = t.frame p

/-- After `FINAL` the frame is finalized, for every instantiation whose masks do not cover the bytes written. It stays
so under a setter that changes no bit of it, and under a setter that writes again what its field holds, which changes
nothing (41_frame_encoder.md R87). -/
def Obligations.FinalizedAfterFinal : Prop :=
  (∀ (p : Params) (s : State), s.busy = false →
    (∀ i, 20 ≤ i → p.sumMask.getLsbD i = false) → (∀ i, 22 ≤ i → p.crcMask.getLsbD i = false) →
      ∃ t, finalize p s = .next t ∧ Finalized p (t.frame p)) ∧
  (∀ s : State, exec .final s = finalize Config.params s) ∧
  (∀ (i : Instr) (s : State), (setterField i).isSome → exec i s = setterCommand Config.params i s) ∧
  ∀ (p : Params) (i : Instr) (s t : State), (setterField i).isSome → setterCommand p i s = .next t →
    (t.frame p = s.frame p → Finalized p (s.frame p) → Finalized p (t.frame p)) ∧
    ∃ u, setterCommand p i t = .next u ∧ u.frame p = t.frame p ∧
      (Finalized p (t.frame p) → Finalized p (u.frame p))

/-- Every instantiation of the parameters gives the documented example its checksum 0x4A and CRC 0x55 when the frame is
built from its reset contents (00_scope.md R7). -/
def Obligations.ReferenceReadingHasKnownDigests : Prop :=
  ∀ s : State, s.busy = false → s.mem = [] →
    ∃ t, issueAll [.setid 0xBB, .setch 1, .settemp 227, .sethum 30, .setbat 1, .final] s = .next t ∧
      t.bytes 10 = 0x4A ∧ t.bytes 11 = 0x55

/-- The frame changes only by a setter or `FINAL` that an idle block accepts, or by a reset: nothing recomputes the
digests, and no transmission touches the frame (20_memory.md R42, R44; 41_frame_encoder.md R87). -/
def Obligations.OnlyEncoderCommandsAndResetChangeTheFrame : Prop :=
  ∀ s t : State, step s = .next t → t.bytes ≠ s.bytes →
    ∃ x rest, s.inputs = x :: rest ∧
      (x.reset = true ∨
       (s.busy = false ∧ ∃ bytes i, x.host = some (.command bytes) ∧ decode bytes = .ok i ∧
         ((setterField i).isSome = true ∨ i = .final)))

/-! ## The host's numbers -/

/-- The temperature operand is the sign and the truncated tenths of the number; there is none from 3276.8 on, nor for
what is no number, and where there is none a report has no expansion (30_encoding.md R60, R62;
93_implementation_defined.md U6). A host's own scaling gives the same command on every decimal with one fractional
digit; that this includes giving none where there is none is the model's reading, log 17. -/
def Obligations.TemperatureOperandTruncates : Prop :=
  (∀ t : ℚ, |t| * 10 < 32768 →
    ∃ sm, settempf (.rational t) = some (.settemp sm) ∧ tempSign sm = decide (t < 0) ∧
      (tempMagnitude sm : ℤ) = ⌊|t| * 10⌋) ∧
  (∀ t : ℚ, 32768 ≤ |t| * 10 → settempf (.rational t) = none) ∧
  (settempf .nonNumber = none ∧ ∀ p : Params, settempfScaled p .nonNumber = none) ∧
  (∀ (id ch : Byte) (t h : HostNumber) (low : Bool), settempf t = none → encodeReport id ch t h low = none) ∧
  ∀ (p : Params) (k : ℤ), settempfScaled p (.rational (k / 10)) = settempf (.rational (k / 10))

/-- The humidity operand is the nearest whole percent, half-way values up; there is none below 0, from 255.5 on, or for
what is no number, and where there is none a report has no expansion (30_encoding.md R59, R62;
93_implementation_defined.md U6). -/
def Obligations.HumidityOperandRoundsHalfUp : Prop :=
  (∀ h : ℚ, 0 ≤ h → h < 511 / 2 →
    ∃ a, sethumf (.rational h) = some (.sethum a) ∧ (a.toNat : ℚ) - 1 / 2 ≤ h ∧ h < (a.toNat : ℚ) + 1 / 2) ∧
  (∀ h : ℚ, (h < 0 ∨ 511 / 2 ≤ h) → sethumf (.rational h) = none) ∧
  sethumf .nonNumber = none ∧
  ∀ (id ch : Byte) (t h : HostNumber) (low : Bool), sethumf h = none → encodeReport id ch t h low = none

/-- One report encoded from the host's numbers: the six commands exist, complete one after the other on an idle block,
and the frame holds the reading (41_frame_encoder.md R89, R90). -/
def Obligations.EncodedReportHoldsTheReading : Prop :=
  ∀ (s : State) (id ch : Byte) (t h : ℚ) (low : Bool), s.busy = false → 1 ≤ ch.toNat → ch.toNat ≤ 3 →
    |t| < 400 → 0 ≤ h → h < 199 / 2 →
      ∃ is u, encodeReport id ch (.rational t) (.rational h) low = some is ∧ issueAll is s = .next u ∧
        u.bytes 5 = id ∧ decChan u.bytes = some ch.toNat ∧
        decTemp u.bytes = (decide (t < 0), ⌊|t| * 10⌋.toNat) ∧ decHum u.bytes = ⌊h + 1 / 2⌋.toNat ∧
        (u.bytes 6).extractLsb' 0 4 &&& Config.params.lowbatBits = (if low then Config.params.lowbatBits else 0)

/-! ## TRANSMITTER -/

/-- `TX` is the byte 0x20 and is taken only by an idle block; there the timer's configuration is saved and replaced, the
block is busy at position 0, the line is not touched, nothing is emitted (42_transmitter.md R108). That the history
notes where the transmission starts is the model's choice, log 12. -/
def Obligations.TxBorrowsTheTimer : Prop :=
  encode .tx = [0x20] ∧
  (∀ s : State, s.busy = true → exec .tx s = .next s) ∧
  ∀ s : State, s.busy = false → exec .tx s = .next { s with
      tsave := s.tcfg
      tcfg := Config.params.periodicCfg
      txpos := 0
      busy := true
      txStarts := s.txStarts ++ [s.wave.length] }

/-- A tick at position `k` up to 191 drives the line with half `k mod 2` of bit `(k mod 16) div 2` of byte `k div 16`,
records the level and advances by one (42_transmitter.md R109). -/
def Obligations.TickEmitsOneHalfSymbol : Prop :=
  ∀ (s : State) (x : Input) (rest : List Input) (k : Nat) (hk : k ≤ 191) (level : Bool),
    s.inputs = x :: rest → x.reset = false → x.tick = true → s.busy = true → s.txpos.val = k →
    level = ((s.bytes ⟨k / 16, by omega⟩).getLsbD (k % 16 / 2) ^^ decide (k % 2 = 1)) →
      step s = .next { s with
        inputs := rest
        pin := level
        wave := s.wave ++ [level]
        txpos := ⟨k + 1, by omega⟩ }

/-- The tick at position 192 forces the line low, records it, gives the timer back and ends the transmission
(42_transmitter.md R110). -/
def Obligations.LastTickEndsTheTransmission : Prop :=
  ∀ (s : State) (x : Input) (rest : List Input),
    s.inputs = x :: rest → x.reset = false → x.tick = true → s.busy = true → s.txpos.val = 192 →
      step s = .next { s with
        inputs := rest
        pin := false
        wave := s.wave ++ [false]
        tcfg := s.tsave
        txpos := 0
        busy := false }

/-- A tick while `BUSY = 0` has no effect: the step is what it would be without it (60_exceptions.md R138). -/
def Obligations.IdleBlockIgnoresTicks : Prop :=
  ∀ (s : State) (x : Input) (rest : List Input), s.busy = false → s.inputs = x :: rest →
    step s = step { s with inputs := { x with tick := false } :: rest } ∧
    (x.reset = false → x.host = none → step s = .next { s with inputs := rest })

/-- A `TX` accepted on an idle block, followed by any inputs without a reset up to and with its 193rd tick, appends
exactly `Wave(FRAME)` to the history, whatever the host offers meanwhile; then the block is idle and low, the timer and
the frame are as they were. The wave of a frame with its constant bytes starts with the preamble, sync and identifier
(42_transmitter.md R111). That the history notes where the transmission starts is the model's choice, log 12. -/
def Obligations.TransmissionEmitsTheWaveOfTheFrame : Prop :=
  (∀ (s : State) (x : Input) (xs rest : List Input), s.busy = false → x.reset = false →
    x.host = some (.command (encode .tx)) → transmissionInputs xs → s.inputs = x :: (xs ++ rest) →
      Host.Core.run core (1 + xs.length) s = .next { s with
        inputs := rest
        wave := s.wave ++ waveOf s.bytes
        txStarts := s.txStarts ++ [s.wave.length]
        tsave := s.tcfg
        tcfg := s.tcfg
        pin := false
        txpos := 0
        busy := false }) ∧
  (∀ F : Frame, (waveOf F).length = 193) ∧
  ∀ (p : Params) (F : Frame), ConstantBits p F →
    (waveOf F).take 32 = (List.replicate 16 [true, false]).flatten ∧
    ((waveOf F).drop 32).take 16 =
      [false, true, true, false, false, true, true, false, true, false, false, true, false, true, false, true] ∧
    ((waveOf F).drop 48).take 16 =
      [true, false, false, true, true, false, true, false, false, true, true, false, false, true, false, true]

/-- The wave of any frame: every pair is complementary, half the levels are high, at most two equal levels are adjacent,
the last level is low, and the frame can be read back (42_transmitter.md R116). -/
def Obligations.WaveIsSelfClockingAndRecoverable : Prop :=
  ∀ F : Frame, ∃ w : Fin 193 → Bool, waveOf F = List.ofFn w ∧
    (∀ n : Fin 96, w ⟨2 * n.val + 1, by omega⟩ = !(w ⟨2 * n.val, by omega⟩)) ∧
    (((waveOf F).take 192).count true = 96 ∧ ((waveOf F).take 192).count false = 96) ∧
    (∀ k : Fin 190, ¬ (w ⟨k.val, by omega⟩ = w ⟨k.val + 1, by omega⟩ ∧
      w ⟨k.val + 1, by omega⟩ = w ⟨k.val + 2, by omega⟩)) ∧
    w 192 = false ∧
    (∀ (j : Fin 12) (n : Fin 8), (F j).getLsbD n.val = w ⟨16 * j.val + 2 * n.val, by omega⟩)

/-- `TX`, a pause in which the host does nothing, and `TX` again: the history gains the same wave twice and the timer has
the host's configuration at the end (42_transmitter.md R114). -/
def Obligations.RepeatedTransmissionEmitsTheWaveTwice : Prop :=
  ∀ (s : State) (x y : Input) (xs pause ys rest : List Input), s.busy = false →
    x.reset = false → x.host = some (.command (encode .tx)) → transmissionInputs xs →
    (∀ z ∈ pause, z.reset = false ∧ z.host = none) →
    y.reset = false → y.host = some (.command (encode .tx)) → transmissionInputs ys →
    s.inputs = x :: (xs ++ pause ++ y :: (ys ++ rest)) →
      ∃ t, Host.Core.run core (2 + xs.length + pause.length + ys.length) s = .next t ∧
        t.wave = s.wave ++ waveOf s.bytes ++ waveOf s.bytes ∧
        t.bytes = s.bytes ∧ t.tcfg = s.tcfg ∧ t.busy = false ∧ t.pin = false ∧ t.inputs = rest

/-- While `BUSY = 1`, and with no reset, a step changes only the line, the history, the position, and at the end `BUSY`
and the timer: the frame, the results and the snapshot stay (20_memory.md R42, 42_transmitter.md R112). -/
def Obligations.BusyStepsKeepFrameAndSnapshot : Prop :=
  ∀ (s : State) (x : Input) (rest : List Input), s.busy = true → s.inputs = x :: rest → x.reset = false →
    ∃ t, step s = .next t ∧
      t = { s with
        inputs := rest, pin := t.pin, wave := t.wave, txpos := t.txpos, busy := t.busy, tcfg := t.tcfg } ∧
      (t.busy = true → t.tcfg = s.tcfg) ∧
      (t.busy = false → t.tcfg = s.tsave ∧ t.pin = false ∧ t.txpos = 0)

/-- `BUSY` falls only at the tick at position 192 or at a reset (42_transmitter.md R112, R113, R118). -/
def Obligations.BusyEndsOnlyByLastTickOrReset : Prop :=
  ∀ s t : State, s.busy = true → step s = .next t → t.busy = false →
    ∃ x rest, s.inputs = x :: rest ∧ (x.reset = true ∨ (x.tick = true ∧ s.txpos.val = 192))

/-- `BUSY` rises only by a `TX` the block accepts (10_state.md R16). -/
def Obligations.BusyBeginsOnlyByTx : Prop :=
  ∀ s t : State, s.busy = false → step s = .next t → t.busy = true →
    ∃ x rest bytes, s.inputs = x :: rest ∧ x.reset = false ∧ x.host = some (.command bytes) ∧
      decode bytes = .ok .tx

/-- The line changes only in a tick step and at reset (10_state.md R15). -/
def Obligations.PinChangesOnlyByTickOrReset : Prop :=
  ∀ s t : State, step s = .next t → t.pin ≠ s.pin →
    ∃ x rest, s.inputs = x :: rest ∧ (x.reset = true ∨ (s.busy = true ∧ x.tick = true))

/-- The history gets one entry, the line's new level, at every tick step; nothing at any other step; and is emptied by a
reset (10_state.md R21; that a reset empties it is the model's choice between the two of R158, log 12). -/
def Obligations.HistoryRecordsOneLevelPerTick : Prop :=
  ∀ (s t : State) (x : Input) (rest : List Input), s.inputs = x :: rest → step s = .next t →
    t.wave =
      if x.reset then [] else if s.busy && x.tick then s.wave ++ [t.pin] else s.wave

/-- Apart from resets and the host's own timer steps, the timer's configuration changes exactly by the block's writes at
its port (30_encoding.md R64, 10_state.md R10). -/
def Obligations.TimerChangesAreTheBlocksWrites : Prop :=
  ∀ (s t : State) (x : Input) (rest : List Input), s.inputs = x :: rest → step s = .next t → x.reset = false →
    (∀ c, x.host ≠ some (.setTimer c)) →
      t.tcfg = (outputs Config.params x s).timerWrite.getD s.tcfg

/-! ## Host timer, reset, invariants -/

/-- The host timer step sets the timer's configuration and nothing else while `BUSY = 0`; while `BUSY = 1` it is not
enabled (10_state.md R28), which in the model reads: the offer is consumed with no effect, log 10. -/
def Obligations.HostTimerStepOnlyWhileIdle : Prop :=
  ∀ (s : State) (x : Input) (rest : List Input) (c : TimerCfg),
    s.inputs = x :: rest → x.reset = false → x.host = some (.setTimer c) →
      (s.busy = false → step s = .next { s with inputs := rest, tcfg := c }) ∧
      (s.busy = true → x.tick = false → step s = .next { s with inputs := rest })

/-- A reset is taken in every state, wins over a tick or a command beside it, and replaces the whole state by the reset
state (70_reset_and_hazards.md R155, 60_exceptions.md R140). What `RES`, `SUMR`, `CRCR` and `TSAVE` then hold is the
model's choice, logs 1 and 2; that the inputs still to come are kept, log 9; that the history is emptied, log 12; that a
host timer step beside the reset is lost, log 21. -/
def Obligations.ResetWinsAndReplacesTheState : Prop :=
  ∀ (s : State) (x : Input) (rest : List Input), s.inputs = x :: rest → x.reset = true →
    step s = .next { State.reset with inputs := rest }

/-- The values the spec gives for reset; and a frame finalized before `SETCH` was issued, whatever other commands came
first, has channel nibble 0, which is no channel's code (70_reset_and_hazards.md R156, R157; 20_memory.md R36). -/
def Obligations.ResetStateHasTheStatedValues : Prop :=
  State.reset.bytes =
    Frame.ofBytes 0xFF 0xFF 0x1A 0x2D 0 0 0 0 0 (Config.params.b9Hi.setWidth 8 <<< 4) 0 0 ∧
  State.reset.pin = false ∧ State.reset.busy = false ∧ State.reset.txpos = 0 ∧
  State.reset.tcfg = Config.params.tcfgReset ∧ State.reset.wave = [] ∧
  ∀ is : List Instr, (∀ i ∈ is, i.wellFormed = true ∧ ∀ a, i ≠ .setch a) →
    ∃ t, issueAll (is ++ [.final]) State.reset = .next t ∧ (t.bytes 4).extractLsb' 4 4 = 0 ∧ decChan t.bytes = none

/-- The invariants hold at reset. -/
def Obligations.InvariantsHoldAtReset : Prop :=
  Machine.Inv Config.params State.reset ∧ Memory.wf Config.params State.reset.mem = true

/-- Every step keeps the invariants: idle means low and at position 0, busy means the timer is borrowed, the constant bits
of the frame never change, the unowned flag bits stay 0 (10_state.md R24). -/
def Obligations.EveryStepKeepsTheInvariants : Prop :=
  ∀ s t : State, Machine.Inv Config.params s → step s = .next t → Machine.Inv Config.params t

/-- Every step keeps the frame buffer's data in its canonical form (the model's own form: log 4). -/
def Obligations.EveryStepKeepsMemoryCanonical : Prop :=
  ∀ s t : State, Memory.wf Config.params s.mem = true → step s = .next t → Memory.wf Config.params t.mem = true

/-- In canonical form, equal bytes are equal data (the model's own form: log 4). -/
def Obligations.CanonicalMemoryIsDeterminedByItsBytes : Prop :=
  ∀ (p : Params) (m m' : Memory), Memory.wf p m = true → Memory.wf p m' = true →
    (∀ j, Memory.read p m j = Memory.read p m' j) → m = m'
end

