-- ==== Sys2Proof/Laws/Bits.lean ====
section
/-! SUPPORT. The bit fields of a byte after one of its nibbles, or some bits of its low nibble, are rewritten
(20_memory.md R37), and the operands' fields as numbers. -/

namespace Sys2Proof.Machine

/-! ## Nibbles -/

theorem nibbles_low (hi lo : Nibble) : (nibbles hi lo).extractLsb' 0 4 = lo := by
  unfold nibbles
  ext k hk
  simp only [BitVec.getElem_extractLsb', BitVec.getLsbD_append]
  simp [hk]

theorem nibbles_high (hi lo : Nibble) : (nibbles hi lo).extractLsb' 4 4 = hi := by
  unfold nibbles
  ext k hk
  simp only [BitVec.getElem_extractLsb', BitVec.getLsbD_append]
  simp [hk]

/-- Rewriting the high nibble sets it and keeps the low one. -/
theorem rewriteHigh_fields (b : Byte) (n : Nibble) :
    ((b &&& 0x0F#8) ||| nibbles n 0#4).extractLsb' 4 4 = n ∧
    ((b &&& 0x0F#8) ||| nibbles n 0#4).extractLsb' 0 4 = b.extractLsb' 0 4 := by
  unfold nibbles
  constructor <;> ext k hk <;>
    simp only [BitVec.getElem_extractLsb', BitVec.getLsbD_or, BitVec.getLsbD_and, BitVec.getLsbD_append] <;>
    interval_cases k <;> simp

/-- Rewriting the low nibble sets it and keeps the high one. -/
theorem rewriteLow_fields (b : Byte) (n : Nibble) :
    ((b &&& 0xF0#8) ||| nibbles 0#4 n).extractLsb' 0 4 = n ∧
    ((b &&& 0xF0#8) ||| nibbles 0#4 n).extractLsb' 4 4 = b.extractLsb' 4 4 := by
  unfold nibbles
  constructor <;> ext k hk <;>
    simp only [BitVec.getElem_extractLsb', BitVec.getLsbD_or, BitVec.getLsbD_and, BitVec.getLsbD_append] <;>
    interval_cases k <;> simp

/-- Rewriting the flag's bits of the low nibble sets or clears exactly them. -/
theorem rewriteFlag_fields (own : Nibble) (b : Byte) (f : Bool) :
    let r := (b &&& ~~~(own.setWidth 8)) ||| (if f then own.setWidth 8 else 0)
    r.extractLsb' 0 4 &&& own = (if f then own else 0) ∧
    r.extractLsb' 0 4 &&& ~~~own = b.extractLsb' 0 4 &&& ~~~own ∧
    r.extractLsb' 4 4 = b.extractLsb' 4 4 := by
  refine ⟨?_, ?_, ?_⟩ <;> ext k hk <;> cases f <;> simp [hk, show k < 8 by omega, show 4 + k < 8 by omega]
  all_goals cases own[k] <;> simp

/-- A byte is its two nibbles. -/
theorem byte_ext_nibbles {a b : Byte} (hlo : a.extractLsb' 0 4 = b.extractLsb' 0 4)
    (hhi : a.extractLsb' 4 4 = b.extractLsb' 4 4) : a = b := by
  ext k hk
  rw [← BitVec.getLsbD_eq_getElem, ← BitVec.getLsbD_eq_getElem]
  by_cases h : k < 4
  · have := congrArg (fun w : Nibble => w.getLsbD k) hlo
    simpa [h] using this
  · have := congrArg (fun w : Nibble => w.getLsbD (k - 4)) hhi
    simpa [show k - 4 < 4 by omega, show 4 + (k - 4) = k by omega] using this

/-! ## Operand fields as numbers -/

theorem decimalDigit_toNat (k m : Nat) : (decimalDigit k m).toNat = m / 10 ^ k % 10 := by
  simp only [decimalDigit, BitVec.toNat_ofNat]
  omega

theorem tempMagnitude_eq (sm : BitVec 16) : tempMagnitude sm = sm.toNat % 32768 := by
  simp [tempMagnitude]

theorem tempSign_eq (sm : BitVec 16) : tempSign sm = decide (32768 ≤ sm.toNat) := by
  unfold tempSign
  rw [show (15 = 16 - 1) from rfl, ← BitVec.msb_eq_getLsbD_last, BitVec.msb_eq_decide]

theorem nib_toNat (F : Frame) (i : Fin 24) :
    (nib F i).toNat = (F ⟨i.val / 2, by omega⟩).toNat / 16 ^ (i.val % 2) % 16 := by
  simp only [nib, BitVec.extractLsb'_toNat, Nat.shiftRight_eq_div_pow, Nat.pow_mul]

/-- The selected positions are the mask's bits below 24. -/
theorem mem_selected {mask : BitVec 64} {i : Fin 24} : i ∈ selected mask ↔ mask.getLsbD i.val = true := by
  simp [selected]

/-- One nibble into the running sum, as numbers: the carry out of bit 7 comes back in at bit 0. -/
theorem addFold_toNat (r : BitVec 9) (n : Nibble) (h : r.toNat ≤ 255) :
    (addFold r n).toNat = if r.toNat + n.toNat ≤ 255 then r.toNat + n.toNat else r.toNat + n.toNat - 255 := by
  have hn := n.isLt
  simp only [addFold, foldOverflow, BitVec.toNat_add, BitVec.toNat_setWidth, BitVec.extractLsb'_toNat,
    Nat.shiftRight_eq_div_pow]
  norm_num
  split <;> omega

/-- One step of the CRC register as a sum over GF(2). -/
theorem crcShift_eq : ∀ (r : Byte) (b : Bool),
    crcShift r b = (r <<< 1) ^^^ (if r.getLsbD 7 then 0x07 else 0) ^^^ (if b then 1 else 0) := by
  decide +kernel

/-- `exactScale10` on the decimals with one fractional digit (30_encoding.md R60). -/
theorem exactScale10_tenths (k : Int) : exactScale10 ((k : ℚ) / 10) = (decide (k < 0), k.natAbs) := by
  unfold exactScale10
  have hq : ((k:ℚ)/10).num * 10 = k * ((k:ℚ)/10).den := by
    have h1 := Rat.num_div_den ((k:ℚ)/10)
    have hd : (((k:ℚ)/10).den : ℚ) ≠ 0 := by exact_mod_cast ((k:ℚ)/10).den_nz
    have h2 : (((k:ℚ)/10).num : ℚ) = (k:ℚ)/10 * ((k:ℚ)/10).den := (Rat.mul_den_eq_num _).symm
    have h3 : (((k:ℚ)/10).num : ℚ) * 10 = k * ((k:ℚ)/10).den := by rw [h2]; ring
    exact_mod_cast h3
  have hdpos : 0 < ((k:ℚ)/10).den := ((k:ℚ)/10).den_pos
  generalize ((k:ℚ)/10).num = n at *
  generalize ((k:ℚ)/10).den = d at *
  have hsign : (n < 0 ↔ k < 0) := by
    constructor
    · intro h; by_contra hk; rw [not_lt] at hk
      have : 0 ≤ k * (d:Int) := by positivity
      omega
    · intro h
      have : k * (d:Int) < 0 := mul_neg_of_neg_of_pos h (by exact_mod_cast hdpos)
      omega
  have habs : n.natAbs * 10 = k.natAbs * d := by
    have := congrArg Int.natAbs hq
    simpa [Int.natAbs_mul] using this
  simp [hsign, habs, hdpos]

end Sys2Proof.Machine
end

