-- ==== Sys2Proof/Laws/Decode.lean ====
section
/-! SUPPORT. Little-endian bytes and the numbers they spell, and the table's rows. -/

namespace Sys2Proof

@[simp] theorem length_leBytes (n v : Nat) : (leBytes n v).length = n := by
  induction n generalizing v with
  | zero => rfl
  | succ n ih => simp [leBytes, ih]

/-- The number spelt by the low bytes of a number is that number modulo their range. -/
@[simp] theorem leNat_leBytes (n v : Nat) : leNat (leBytes n v) = v % 256 ^ n := by
  induction n generalizing v with
  | zero => simp [leBytes, leNat, Nat.mod_one]
  | succ n ih =>
    simp only [leBytes, leNat, ih, BitVec.toNat_ofNat]
    rw [Nat.pow_succ (n := 256), Nat.mul_comm (256 ^ n) 256, Nat.mod_mul]

/-- The bytes of the number some bytes spell are those bytes. -/
theorem leBytes_leNat (bs : List Byte) : leBytes bs.length (leNat bs) = bs := by
  induction bs with
  | nil => rfl
  | cons b bs ih =>
    have hb := b.isLt
    have hdiv : (b.toNat + 256 * leNat bs) / 256 = leNat bs := by omega
    have hmod : BitVec.ofNat 8 (b.toNat + 256 * leNat bs) = b := by
      apply BitVec.eq_of_toNat_eq
      simp only [BitVec.toNat_ofNat]
      omega
    simp only [List.length_cons, leNat, leBytes, hdiv, hmod, ih]

theorem leNat_lt (bs : List Byte) : leNat bs < 256 ^ bs.length := by
  induction bs with
  | nil => simp [leNat]
  | cons b bs ih =>
    have hb := b.isLt
    simp only [leNat, List.length_cons, Nat.pow_succ]
    omega

/-- What `decode` answers when it answers a command. -/
theorem decode_ok {bytes : List Byte} {i : Instr} (h : decode bytes = .ok i) :
    ∃ opcode operands row, bytes = opcode :: operands ∧ opcodeRow opcode = some row ∧
      operands.length = row.operandBytes ∧ i = row.build operands := by
  unfold decode at h
  split at h
  · cases h
  · rename_i opcode operands
    split at h
    · cases h
    · rename_i row hrow
      split at h
      · cases h
      · split at h
        · cases h
        · cases h
          exact ⟨opcode, operands, row, rfl, hrow, by omega, rfl⟩

/-- The row found for an opcode is a row of the table with that opcode. -/
theorem opcodeRow_mem {opcode : Byte} {row : OpcodeRow} (h : opcodeRow opcode = some row) :
    row ∈ opcodeRows ∧ row.opcode = opcode :=
  ⟨List.mem_of_find?_eq_some h, by simpa using List.find?_some h⟩

end Sys2Proof
end

