-- ==== Sys2Proof/Laws/State.lean ====
section
/-! SUPPORT. One lemma per field per update of the state, each true by unfolding the update once, so that no later proof
unfolds a record update. -/

namespace Sys2Proof.Machine

section
variable (p : Params) (s : State)

/-! ### `setByte` -/

@[simp] theorem setByte_mem (j : Fin 12) (b : Byte) : (setByte p j b s).mem = Memory.write p s.mem j b := rfl

@[simp] theorem setByte_sumr (j : Fin 12) (b : Byte) : (setByte p j b s).sumr = s.sumr := rfl

@[simp] theorem setByte_crcr (j : Fin 12) (b : Byte) : (setByte p j b s).crcr = s.crcr := rfl

@[simp] theorem setByte_res (j : Fin 12) (b : Byte) : (setByte p j b s).res = s.res := rfl

@[simp] theorem setByte_pin (j : Fin 12) (b : Byte) : (setByte p j b s).pin = s.pin := rfl

@[simp] theorem setByte_busy (j : Fin 12) (b : Byte) : (setByte p j b s).busy = s.busy := rfl

@[simp] theorem setByte_txpos (j : Fin 12) (b : Byte) : (setByte p j b s).txpos = s.txpos := rfl

@[simp] theorem setByte_tcfg (j : Fin 12) (b : Byte) : (setByte p j b s).tcfg = s.tcfg := rfl

@[simp] theorem setByte_tsave (j : Fin 12) (b : Byte) : (setByte p j b s).tsave = s.tsave := rfl

@[simp] theorem setByte_wave (j : Fin 12) (b : Byte) : (setByte p j b s).wave = s.wave := rfl

@[simp] theorem setByte_txStarts (j : Fin 12) (b : Byte) : (setByte p j b s).txStarts = s.txStarts := rfl

@[simp] theorem setByte_inputs (j : Fin 12) (b : Byte) : (setByte p j b s).inputs = s.inputs := rfl

/-! ### `rmw` -/

@[simp] theorem rmw_mem (j : Fin 12) (own v : Byte) : (rmw p j own v s).mem = Memory.write p s.mem j ((s.frame p j &&& ~~~own) ||| v) := rfl

@[simp] theorem rmw_sumr (j : Fin 12) (own v : Byte) : (rmw p j own v s).sumr = s.sumr := rfl

@[simp] theorem rmw_crcr (j : Fin 12) (own v : Byte) : (rmw p j own v s).crcr = s.crcr := rfl

@[simp] theorem rmw_res (j : Fin 12) (own v : Byte) : (rmw p j own v s).res = s.res := rfl

@[simp] theorem rmw_pin (j : Fin 12) (own v : Byte) : (rmw p j own v s).pin = s.pin := rfl

@[simp] theorem rmw_busy (j : Fin 12) (own v : Byte) : (rmw p j own v s).busy = s.busy := rfl

@[simp] theorem rmw_txpos (j : Fin 12) (own v : Byte) : (rmw p j own v s).txpos = s.txpos := rfl

@[simp] theorem rmw_tcfg (j : Fin 12) (own v : Byte) : (rmw p j own v s).tcfg = s.tcfg := rfl

@[simp] theorem rmw_tsave (j : Fin 12) (own v : Byte) : (rmw p j own v s).tsave = s.tsave := rfl

@[simp] theorem rmw_wave (j : Fin 12) (own v : Byte) : (rmw p j own v s).wave = s.wave := rfl

@[simp] theorem rmw_txStarts (j : Fin 12) (own v : Byte) : (rmw p j own v s).txStarts = s.txStarts := rfl

@[simp] theorem rmw_inputs (j : Fin 12) (own v : Byte) : (rmw p j own v s).inputs = s.inputs := rfl

/-! ### `deviceReset` -/

@[simp] theorem deviceReset_mem : (deviceReset p s).mem = [] := rfl

@[simp] theorem deviceReset_sumr : (deviceReset p s).sumr = 0 := rfl

@[simp] theorem deviceReset_crcr : (deviceReset p s).crcr = 0 := rfl

@[simp] theorem deviceReset_res : (deviceReset p s).res = 0 := rfl

@[simp] theorem deviceReset_pin : (deviceReset p s).pin = false := rfl

@[simp] theorem deviceReset_busy : (deviceReset p s).busy = false := rfl

@[simp] theorem deviceReset_txpos : (deviceReset p s).txpos = 0 := rfl

@[simp] theorem deviceReset_tcfg : (deviceReset p s).tcfg = p.tcfgReset := rfl

@[simp] theorem deviceReset_tsave : (deviceReset p s).tsave = p.tcfgReset := rfl

@[simp] theorem deviceReset_wave : (deviceReset p s).wave = [] := rfl

@[simp] theorem deviceReset_txStarts : (deviceReset p s).txStarts = [] := rfl

@[simp] theorem deviceReset_inputs : (deviceReset p s).inputs = s.inputs := rfl

/-! ### `startTransmission` -/

@[simp] theorem startTransmission_mem : (startTransmission p s).mem = s.mem := rfl

@[simp] theorem startTransmission_sumr : (startTransmission p s).sumr = s.sumr := rfl

@[simp] theorem startTransmission_crcr : (startTransmission p s).crcr = s.crcr := rfl

@[simp] theorem startTransmission_res : (startTransmission p s).res = s.res := rfl

@[simp] theorem startTransmission_pin : (startTransmission p s).pin = s.pin := rfl

@[simp] theorem startTransmission_busy : (startTransmission p s).busy = true := rfl

@[simp] theorem startTransmission_txpos : (startTransmission p s).txpos = 0 := rfl

@[simp] theorem startTransmission_tcfg : (startTransmission p s).tcfg = p.periodicCfg := rfl

@[simp] theorem startTransmission_tsave : (startTransmission p s).tsave = s.tcfg := rfl

@[simp] theorem startTransmission_wave : (startTransmission p s).wave = s.wave := rfl

@[simp] theorem startTransmission_txStarts : (startTransmission p s).txStarts = s.txStarts ++ [s.wave.length] := rfl

@[simp] theorem startTransmission_inputs : (startTransmission p s).inputs = s.inputs := rfl

@[simp] theorem startTransmission_frame : (startTransmission p s).frame p = s.frame p := rfl

/-! ### `emitHalfSymbol` -/

@[simp] theorem emitHalfSymbol_mem (k : Fin 192) : (emitHalfSymbol p s k).mem = s.mem := rfl

@[simp] theorem emitHalfSymbol_sumr (k : Fin 192) : (emitHalfSymbol p s k).sumr = s.sumr := rfl

@[simp] theorem emitHalfSymbol_crcr (k : Fin 192) : (emitHalfSymbol p s k).crcr = s.crcr := rfl

@[simp] theorem emitHalfSymbol_res (k : Fin 192) : (emitHalfSymbol p s k).res = s.res := rfl

@[simp] theorem emitHalfSymbol_pin (k : Fin 192) : (emitHalfSymbol p s k).pin = levelAt (s.frame p) k := rfl

@[simp] theorem emitHalfSymbol_busy (k : Fin 192) : (emitHalfSymbol p s k).busy = s.busy := rfl

@[simp] theorem emitHalfSymbol_txpos (k : Fin 192) : (emitHalfSymbol p s k).txpos = k.succ := rfl

@[simp] theorem emitHalfSymbol_tcfg (k : Fin 192) : (emitHalfSymbol p s k).tcfg = s.tcfg := rfl

@[simp] theorem emitHalfSymbol_tsave (k : Fin 192) : (emitHalfSymbol p s k).tsave = s.tsave := rfl

@[simp] theorem emitHalfSymbol_wave (k : Fin 192) : (emitHalfSymbol p s k).wave = s.wave ++ [levelAt (s.frame p) k] := rfl

@[simp] theorem emitHalfSymbol_txStarts (k : Fin 192) : (emitHalfSymbol p s k).txStarts = s.txStarts := rfl

@[simp] theorem emitHalfSymbol_inputs (k : Fin 192) : (emitHalfSymbol p s k).inputs = s.inputs := rfl

@[simp] theorem emitHalfSymbol_frame (k : Fin 192) : (emitHalfSymbol p s k).frame p = s.frame p := rfl

/-! ### `endTransmission` -/

@[simp] theorem endTransmission_mem : (endTransmission s).mem = s.mem := rfl

@[simp] theorem endTransmission_sumr : (endTransmission s).sumr = s.sumr := rfl

@[simp] theorem endTransmission_crcr : (endTransmission s).crcr = s.crcr := rfl

@[simp] theorem endTransmission_res : (endTransmission s).res = s.res := rfl

@[simp] theorem endTransmission_pin : (endTransmission s).pin = false := rfl

@[simp] theorem endTransmission_busy : (endTransmission s).busy = false := rfl

@[simp] theorem endTransmission_txpos : (endTransmission s).txpos = 0 := rfl

@[simp] theorem endTransmission_tcfg : (endTransmission s).tcfg = s.tsave := rfl

@[simp] theorem endTransmission_tsave : (endTransmission s).tsave = s.tsave := rfl

@[simp] theorem endTransmission_wave : (endTransmission s).wave = s.wave ++ [false] := rfl

@[simp] theorem endTransmission_txStarts : (endTransmission s).txStarts = s.txStarts := rfl

@[simp] theorem endTransmission_inputs : (endTransmission s).inputs = s.inputs := rfl

@[simp] theorem endTransmission_frame : (endTransmission s).frame p = s.frame p := rfl

/-! ### `writeChecksum` -/

@[simp] theorem writeChecksum_sumr : (writeChecksum p s).sumr = nsumRegister (s.frame p) p.sumMask := rfl

@[simp] theorem writeChecksum_crcr : (writeChecksum p s).crcr = s.crcr := rfl

@[simp] theorem writeChecksum_res : (writeChecksum p s).res = s.res := rfl

@[simp] theorem writeChecksum_pin : (writeChecksum p s).pin = s.pin := rfl

@[simp] theorem writeChecksum_busy : (writeChecksum p s).busy = s.busy := rfl

@[simp] theorem writeChecksum_txpos : (writeChecksum p s).txpos = s.txpos := rfl

@[simp] theorem writeChecksum_tcfg : (writeChecksum p s).tcfg = s.tcfg := rfl

@[simp] theorem writeChecksum_tsave : (writeChecksum p s).tsave = s.tsave := rfl

@[simp] theorem writeChecksum_wave : (writeChecksum p s).wave = s.wave := rfl

@[simp] theorem writeChecksum_txStarts : (writeChecksum p s).txStarts = s.txStarts := rfl

@[simp] theorem writeChecksum_inputs : (writeChecksum p s).inputs = s.inputs := rfl

/-! ### `writeCrc` -/

@[simp] theorem writeCrc_sumr : (writeCrc p s).sumr = s.sumr := rfl

@[simp] theorem writeCrc_crcr : (writeCrc p s).crcr = crc8 (s.frame p) p.crcMask p.crcInit := rfl

@[simp] theorem writeCrc_res : (writeCrc p s).res = s.res := rfl

@[simp] theorem writeCrc_pin : (writeCrc p s).pin = s.pin := rfl

@[simp] theorem writeCrc_busy : (writeCrc p s).busy = s.busy := rfl

@[simp] theorem writeCrc_txpos : (writeCrc p s).txpos = s.txpos := rfl

@[simp] theorem writeCrc_tcfg : (writeCrc p s).tcfg = s.tcfg := rfl

@[simp] theorem writeCrc_tsave : (writeCrc p s).tsave = s.tsave := rfl

@[simp] theorem writeCrc_wave : (writeCrc p s).wave = s.wave := rfl

@[simp] theorem writeCrc_txStarts : (writeCrc p s).txStarts = s.txStarts := rfl

@[simp] theorem writeCrc_inputs : (writeCrc p s).inputs = s.inputs := rfl

/-! ### `writeTemperature` -/

@[simp] theorem writeTemperature_sumr (sm : BitVec 16) : (writeTemperature p sm s).sumr = s.sumr := rfl

@[simp] theorem writeTemperature_crcr (sm : BitVec 16) : (writeTemperature p sm s).crcr = s.crcr := rfl

@[simp] theorem writeTemperature_res (sm : BitVec 16) : (writeTemperature p sm s).res = s.res := rfl

@[simp] theorem writeTemperature_pin (sm : BitVec 16) : (writeTemperature p sm s).pin = s.pin := rfl

@[simp] theorem writeTemperature_busy (sm : BitVec 16) : (writeTemperature p sm s).busy = s.busy := rfl

@[simp] theorem writeTemperature_txpos (sm : BitVec 16) : (writeTemperature p sm s).txpos = s.txpos := rfl

@[simp] theorem writeTemperature_tcfg (sm : BitVec 16) : (writeTemperature p sm s).tcfg = s.tcfg := rfl

@[simp] theorem writeTemperature_tsave (sm : BitVec 16) : (writeTemperature p sm s).tsave = s.tsave := rfl

@[simp] theorem writeTemperature_wave (sm : BitVec 16) : (writeTemperature p sm s).wave = s.wave := rfl

@[simp] theorem writeTemperature_txStarts (sm : BitVec 16) : (writeTemperature p sm s).txStarts = s.txStarts := rfl

@[simp] theorem writeTemperature_inputs (sm : BitVec 16) : (writeTemperature p sm s).inputs = s.inputs := rfl

/-! ### `writeHumidity` -/

@[simp] theorem writeHumidity_sumr (a : Byte) : (writeHumidity p a s).sumr = s.sumr := rfl

@[simp] theorem writeHumidity_crcr (a : Byte) : (writeHumidity p a s).crcr = s.crcr := rfl

@[simp] theorem writeHumidity_res (a : Byte) : (writeHumidity p a s).res = s.res := rfl

@[simp] theorem writeHumidity_pin (a : Byte) : (writeHumidity p a s).pin = s.pin := rfl

@[simp] theorem writeHumidity_busy (a : Byte) : (writeHumidity p a s).busy = s.busy := rfl

@[simp] theorem writeHumidity_txpos (a : Byte) : (writeHumidity p a s).txpos = s.txpos := rfl

@[simp] theorem writeHumidity_tcfg (a : Byte) : (writeHumidity p a s).tcfg = s.tcfg := rfl

@[simp] theorem writeHumidity_tsave (a : Byte) : (writeHumidity p a s).tsave = s.tsave := rfl

@[simp] theorem writeHumidity_wave (a : Byte) : (writeHumidity p a s).wave = s.wave := rfl

@[simp] theorem writeHumidity_txStarts (a : Byte) : (writeHumidity p a s).txStarts = s.txStarts := rfl

@[simp] theorem writeHumidity_inputs (a : Byte) : (writeHumidity p a s).inputs = s.inputs := rfl

/-! ### `presentCommand` -/

@[simp] theorem presentCommand_mem (bytes : List Byte) : (presentCommand bytes s).mem = s.mem := rfl

@[simp] theorem presentCommand_sumr (bytes : List Byte) : (presentCommand bytes s).sumr = s.sumr := rfl

@[simp] theorem presentCommand_crcr (bytes : List Byte) : (presentCommand bytes s).crcr = s.crcr := rfl

@[simp] theorem presentCommand_res (bytes : List Byte) : (presentCommand bytes s).res = s.res := rfl

@[simp] theorem presentCommand_pin (bytes : List Byte) : (presentCommand bytes s).pin = s.pin := rfl

@[simp] theorem presentCommand_busy (bytes : List Byte) : (presentCommand bytes s).busy = s.busy := rfl

@[simp] theorem presentCommand_txpos (bytes : List Byte) : (presentCommand bytes s).txpos = s.txpos := rfl

@[simp] theorem presentCommand_tcfg (bytes : List Byte) : (presentCommand bytes s).tcfg = s.tcfg := rfl

@[simp] theorem presentCommand_tsave (bytes : List Byte) : (presentCommand bytes s).tsave = s.tsave := rfl

@[simp] theorem presentCommand_wave (bytes : List Byte) : (presentCommand bytes s).wave = s.wave := rfl

@[simp] theorem presentCommand_txStarts (bytes : List Byte) : (presentCommand bytes s).txStarts = s.txStarts := rfl

@[simp] theorem presentCommand_inputs (bytes : List Byte) : (presentCommand bytes s).inputs = { host := some (.command bytes) } :: s.inputs := rfl

@[simp] theorem presentCommand_frame (bytes : List Byte) : (presentCommand bytes s).frame p = s.frame p := rfl

/-! ### Taking an input off the list -/

@[simp] theorem inputs_update_frame (xs : List Input) : State.frame p { s with inputs := xs } = s.frame p := rfl

@[simp] theorem tcfg_update_frame (c : TimerCfg) : State.frame p { s with tcfg := c } = s.frame p := rfl

end

end Sys2Proof.Machine
end

