-- ==== Sys2Proof/Laws/Memory.lean ====
section
/-! SUPPORT. Reading after writing the frame buffer, and the canonical form every memory operation keeps. -/

namespace Sys2Proof.Machine

theorem Memory.read_insert (p : Params) (j i : Fin 12) (b : Byte) (m : Memory) :
    Memory.read p (Memory.insert j.val b m) i = if i = j then b else Memory.read p m i := by
  induction m with
  | nil =>
    by_cases h : i = j
    · simp [Memory.insert, Memory.read, h]
    · have : ¬ j.val = i.val := fun e => h (Fin.ext e.symm)
      simp [Memory.insert, Memory.read, h, this]
  | cons c m ih =>
    obtain ⟨a, b'⟩ := c
    unfold Memory.insert
    by_cases h : i = j
    · subst h
      split
      · simp [Memory.read]
      · split
        · simp [Memory.read]
        · rename_i h1 h2
          simp [Memory.read, ih, Ne.symm h2]
    · have hji : ¬ j.val = i.val := fun e => h (Fin.ext e.symm)
      split
      · simp [Memory.read, hji]
      · split
        · rename_i h1 h2
          simp [Memory.read, hji, ← h2]
        · simp [Memory.read, ih, h]

theorem Memory.read_filter (p : Params) (j i : Fin 12) (m : Memory) :
    Memory.read p (m.filter fun cell => cell.1 ≠ j.val) i
      = if i = j then unlistedByte p j.val else Memory.read p m i := by
  induction m with
  | nil => by_cases h : i = j <;> simp [Memory.read, h]
  | cons c m ih =>
    obtain ⟨a, b⟩ := c
    by_cases ha : a = j.val
    · by_cases h : i = j
      · simpa [ha, h] using ih
      · have hji : ¬ j.val = i.val := fun e => h (Fin.ext e.symm)
        simp only [ne_eq, decide_not, ha, decide_true, Bool.not_true, Bool.false_eq_true, not_false_eq_true,
          List.filter_cons_of_neg, h, if_false, Memory.read, hji]
        simpa [h] using ih
    · by_cases hai : a = i.val
      · have h : ¬ i = j := fun e => ha (by rw [hai, e])
        rw [List.filter_cons_of_pos (by simpa using ha)]
        simp [Memory.read, hai, h]
      · simp only [ne_eq, decide_not, ha, decide_false, Bool.not_false, List.filter_cons_of_pos, Memory.read, hai,
          if_false]
        simpa using ih

/-- A byte reads as last written; every other byte reads as before. -/
theorem Memory.read_write (p : Params) (m : Memory) (j i : Fin 12) (b : Byte) :
    Memory.read p (Memory.write p m j b) i = if i = j then b else Memory.read p m i := by
  unfold Memory.write
  split
  · rename_i h
    rw [Memory.read_filter, h]
  · rw [Memory.read_insert]

/-- What `FRAME[j] <- b` does to the frame. -/
@[simp] theorem setByte_frame (p : Params) (s : State) (j : Fin 12) (b : Byte) :
    (setByte p j b s).frame p = Function.update (s.frame p) j b := by
  funext i
  simp only [State.frame, setByte_mem, Memory.read_write, Function.update_apply]

/-- What `Rmw(j, own, v)` does to the frame (20_memory.md R37). -/
@[simp] theorem rmw_frame (p : Params) (s : State) (j : Fin 12) (own v : Byte) :
    (rmw p j own v s).frame p = Function.update (s.frame p) j ((s.frame p j &&& ~~~own) ||| v) := by
  unfold rmw
  rw [setByte_frame]

/-- After reset the frame reads as its reset contents (20_memory.md R36). -/
@[simp] theorem deviceReset_frame (p : Params) (s : State) (j : Fin 12) :
    (deviceReset p s).frame p j = unlistedByte p j.val := rfl

/-! ## The canonical form -/

theorem Memory.wf_cons (p : Params) (a : Nat) (b : Byte) (m : Memory) :
    Memory.wf p ((a, b) :: m) = true ↔
      a < 12 ∧ b ≠ unlistedByte p a ∧ (∀ cell ∈ m, a < cell.1) ∧ Memory.wf p m = true := by
  simp [Memory.wf, and_assoc]

theorem Memory.mem_insert {a : Nat} {b : Byte} {m : Memory} {cell : Host.Cell}
    (h : cell ∈ Memory.insert a b m) : cell = (a, b) ∨ cell ∈ m := by
  induction m with
  | nil => simpa [Memory.insert] using h
  | cons c m ih =>
    obtain ⟨a', b'⟩ := c
    unfold Memory.insert at h
    split at h
    · simpa using h
    · split at h
      · rcases List.mem_cons.1 h with h | h
        · exact .inl h
        · exact .inr (List.mem_cons_of_mem _ h)
      · rcases List.mem_cons.1 h with h | h
        · exact .inr (h ▸ List.mem_cons_self)
        · rcases ih h with h | h
          · exact .inl h
          · exact .inr (List.mem_cons_of_mem _ h)

theorem Memory.wf_insert (p : Params) (j : Fin 12) (b : Byte) (m : Memory) (hb : b ≠ unlistedByte p j.val)
    (hm : Memory.wf p m = true) : Memory.wf p (Memory.insert j.val b m) = true := by
  induction m with
  | nil => exact (Memory.wf_cons ..).2 ⟨j.isLt, hb, by simp, rfl⟩
  | cons c m ih =>
    obtain ⟨a, b'⟩ := c
    obtain ⟨ha, hb', hall, hwf⟩ := (Memory.wf_cons p a b' m).1 hm
    unfold Memory.insert
    split
    · rename_i hlt
      refine (Memory.wf_cons ..).2 ⟨j.isLt, hb, fun cell hc => ?_, hm⟩
      rcases List.mem_cons.1 hc with rfl | hc
      · exact hlt
      · exact hlt.trans (hall cell hc)
    · split
      · rename_i heq
        exact (Memory.wf_cons ..).2 ⟨j.isLt, hb, fun cell hc => heq ▸ hall cell hc, hwf⟩
      · refine (Memory.wf_cons ..).2 ⟨ha, hb', fun cell hc => ?_, ih hwf⟩
        rcases Memory.mem_insert hc with rfl | hc
        · simp only
          omega
        · exact hall cell hc

theorem Memory.wf_filter (p : Params) (q : Host.Cell → Bool) (m : Memory) (hm : Memory.wf p m = true) :
    Memory.wf p (m.filter q) = true := by
  induction m with
  | nil => rfl
  | cons c m ih =>
    obtain ⟨a, b⟩ := c
    obtain ⟨ha, hb, hall, hwf⟩ := (Memory.wf_cons p a b m).1 hm
    rw [List.filter_cons]
    split
    · exact (Memory.wf_cons ..).2 ⟨ha, hb, fun cell hc => hall cell (List.mem_of_mem_filter hc), ih hwf⟩
    · exact ih hwf

/-- Every write keeps the canonical form. -/
theorem Memory.wf_write (p : Params) (m : Memory) (j : Fin 12) (b : Byte) (hm : Memory.wf p m = true) :
    Memory.wf p (Memory.write p m j b) = true := by
  unfold Memory.write
  split
  · exact Memory.wf_filter p _ m hm
  · rename_i h
    exact Memory.wf_insert p j b m h hm

theorem wf_setByte (p : Params) (j : Fin 12) (b : Byte) (s : State) (h : Memory.wf p s.mem = true) :
    Memory.wf p (setByte p j b s).mem = true :=
  Memory.wf_write p _ j b h

theorem wf_rmw (p : Params) (j : Fin 12) (own v : Byte) (s : State) (h : Memory.wf p s.mem = true) :
    Memory.wf p (rmw p j own v s).mem = true :=
  Memory.wf_write p _ j _ h

theorem wf_writeTemperature (p : Params) (sm : BitVec 16) (s : State) (h : Memory.wf p s.mem = true) :
    Memory.wf p (writeTemperature p sm s).mem = true :=
  wf_rmw _ _ _ _ _ (wf_rmw _ _ _ _ _ (wf_rmw _ _ _ _ _ h))

theorem wf_writeHumidity (p : Params) (a : Byte) (s : State) (h : Memory.wf p s.mem = true) :
    Memory.wf p (writeHumidity p a s).mem = true :=
  wf_rmw _ _ _ _ _ (wf_rmw _ _ _ _ _ h)

theorem wf_writeChecksum (p : Params) (s : State) (h : Memory.wf p s.mem = true) :
    Memory.wf p (writeChecksum p s).mem = true :=
  wf_setByte p _ _ _ h

theorem wf_writeCrc (p : Params) (s : State) (h : Memory.wf p s.mem = true) :
    Memory.wf p (writeCrc p s).mem = true :=
  wf_setByte p _ _ _ h

theorem wf_resetAt (p : Params) : Memory.wf p (State.resetAt p).mem = true := rfl

end Sys2Proof.Machine
end

