-- ==== Sys2Proof/Laws/Ops.lean ====
section
/-! SUPPORT. What each shared operation can do, said once: acceptance, the read-modify-write, the tick step, and the
step itself by kinds (10_state.md R25). -/

namespace Sys2Proof.Machine

/-! ## Acceptance -/

@[simp] theorem accept_idle {s : State} {effect : Result} (h : s.busy = false) : accept s effect = effect := by
  simp [accept, h]

@[simp] theorem accept_busy {s : State} {effect : Result} (h : s.busy = true) : accept s effect = .next s := by
  simp [accept, h]

/-- A command answers a next state either because it is not taken, or by its effect. -/
theorem accept_next {s t : State} {effect : Result} (h : accept s effect = .next t) :
    (s.busy = true ∧ t = s) ∨ (s.busy = false ∧ effect = .next t) := by
  cases hb : s.busy
  · exact .inr ⟨rfl, by simpa [hb] using h⟩
  · simp only [hb, accept_busy] at h
    cases h
    exact .inl ⟨rfl, rfl⟩

/-- A command is refused only when the port is ready. -/
theorem accept_refused {s : State} {r : Refusal} {effect : Result} (h : accept s effect = .refused r) :
    s.busy = false ∧ effect = .refused r := by
  cases hb : s.busy
  · exact ⟨rfl, by simpa [hb] using h⟩
  · simp [hb] at h

/-! ## Writing the frame -/

theorem changesOnlyFrame_setByte (p : Params) (j : Fin 12) (b : Byte) (s : State) :
    ChangesOnlyFrame s (setByte p j b s) := rfl

theorem changesOnlyFrame_rmw (p : Params) (j : Fin 12) (own v : Byte) (s : State) :
    ChangesOnlyFrame s (rmw p j own v s) := rfl

theorem ChangesOnlyFrame.trans {s t u : State} (h : ChangesOnlyFrame s t) (h' : ChangesOnlyFrame t u) :
    ChangesOnlyFrame s u := by
  unfold ChangesOnlyFrame at *
  rw [h', h]

/-- After `Rmw(j, own, v)` with `v` inside `own`, the owned bits are `v`, the other bits of byte `j` and every other byte
are unchanged (20_memory.md R37). -/
theorem rmw_spec (p : Params) (j : Fin 12) (own v : Byte) (s : State) (hv : v &&& ~~~own = 0) :
    (rmw p j own v s).frame p j &&& own = v ∧
    (rmw p j own v s).frame p j &&& ~~~own = s.frame p j &&& ~~~own ∧
    (∀ i, i ≠ j → (rmw p j own v s).frame p i = s.frame p i) ∧
    ChangesOnlyFrame s (rmw p j own v s) := by
  refine ⟨?_, ?_, fun i hi => ?_, changesOnlyFrame_rmw ..⟩
  · rw [rmw_frame, Function.update_self]
    ext k hk
    have := congrArg (fun w : Byte => w.getLsbD k) hv
    simp only [BitVec.getLsbD_and, BitVec.getLsbD_not] at this
    simp only [← BitVec.getLsbD_eq_getElem, BitVec.getLsbD_and, BitVec.getLsbD_or, BitVec.getLsbD_not]
    revert this
    cases own.getLsbD k <;> cases v.getLsbD k <;> simp [hk]
  · rw [rmw_frame, Function.update_self]
    ext k hk
    have := congrArg (fun w : Byte => w.getLsbD k) hv
    simp only [BitVec.getLsbD_and, BitVec.getLsbD_not] at this
    simp only [← BitVec.getLsbD_eq_getElem, BitVec.getLsbD_and, BitVec.getLsbD_or, BitVec.getLsbD_not]
    revert this
    cases own.getLsbD k <;> cases v.getLsbD k <;> simp [hk]
  · rw [rmw_frame, Function.update_of_ne hi]

theorem changesOnlyFrame_writeTemperature (p : Params) (sm : BitVec 16) (s : State) :
    ChangesOnlyFrame s (writeTemperature p sm s) := rfl

theorem changesOnlyFrame_writeHumidity (p : Params) (a : Byte) (s : State) :
    ChangesOnlyFrame s (writeHumidity p a s) := rfl

/-- What `SETTEMP` does to the frame, byte by byte (41_frame_encoder.md R83). -/
theorem writeTemperature_frame (p : Params) (sm : BitVec 16) (s : State) (j : Fin 12) :
    (writeTemperature p sm s).frame p j =
      if j = 8 then
        (s.frame p 8 &&& 0xF0#8)
          ||| nibbles 0#4 (signNibble p (tempSign sm) ||| hundredsField (tempMagnitude sm))
      else if j = 7 then nibbles (decimalDigit 2 (tempMagnitude sm)) (decimalDigit 1 (tempMagnitude sm))
      else if j = 6 then (s.frame p 6 &&& 0x0F#8) ||| nibbles (decimalDigit 0 (tempMagnitude sm)) 0#4
      else s.frame p j := by
  simp only [writeTemperature, rmw_frame, Function.update_apply]
  split
  · subst_vars; simp
  · split
    · subst_vars; simp
    · split
      · subst_vars; simp
      · rfl

/-- What `SETHUM` does to the frame, byte by byte (41_frame_encoder.md R84). -/
theorem writeHumidity_frame (p : Params) (a : Byte) (s : State) (j : Fin 12) :
    (writeHumidity p a s).frame p j =
      if j = 9 then (s.frame p 9 &&& 0xF0#8) ||| nibbles 0#4 (decimalDigit 1 a.toNat)
      else if j = 8 then (s.frame p 8 &&& 0x0F#8) ||| nibbles (decimalDigit 0 a.toNat) 0#4
      else s.frame p j := by
  simp only [writeHumidity, rmw_frame, Function.update_apply]
  split
  · subst_vars; simp
  · split
    · subst_vars; simp
    · rfl

/-- What the checksum half of `FINAL` does to the frame (41_frame_encoder.md R86). -/
@[simp] theorem writeChecksum_frame (p : Params) (s : State) :
    (writeChecksum p s).frame p = Function.update (s.frame p) 10 (nsum (s.frame p) p.sumMask) := by
  unfold writeChecksum
  rw [setByte_frame]
  rfl

/-- What the CRC half of `FINAL` does to the frame (41_frame_encoder.md R86). -/
@[simp] theorem writeCrc_frame (p : Params) (s : State) :
    (writeCrc p s).frame p = Function.update (s.frame p) 11 (crc8 (s.frame p) p.crcMask p.crcInit) := by
  unfold writeCrc
  rw [setByte_frame]
  rfl

/-- What `SETCH` does to the frame, byte by byte (41_frame_encoder.md R81). -/
theorem setChannel_frame (p : Params) (a : Byte) (s : State) (j : Fin 12) :
    (rmw p 4 0xF0 (nibbles (channelCode a) 0) s).frame p j =
      if j = 4 then (s.frame p 4 &&& 0x0F#8) ||| nibbles (channelCode a) 0#4 else s.frame p j := by
  simp only [rmw_frame, Function.update_apply]
  split <;> rfl

/-- What `SETID` does to the frame, byte by byte (41_frame_encoder.md R82). -/
theorem setRollingId_frame (p : Params) (a : Byte) (s : State) (j : Fin 12) :
    (rmw p 5 0xFF a s).frame p j = if j = 5 then a else s.frame p j := by
  simp only [rmw_frame, Function.update_apply]
  split
  · simp
  · rfl

/-! ## The tick step -/

/-- A tick has no effect, emits one half-symbol, or ends the transmission (42_transmitter.md R109, R110). -/
theorem tick_cases (p : Params) (s : State) :
    (s.busy = false ∧ tick p s = s) ∨
    (∃ k : Fin 192, s.busy = true ∧ s.txpos.val = k.val ∧ tick p s = emitHalfSymbol p s k) ∨
    (s.busy = true ∧ s.txpos.val = 192 ∧ tick p s = endTransmission s) := by
  unfold tick
  cases hb : s.busy
  · exact .inl ⟨rfl, by simp⟩
  · by_cases h : s.txpos.val < 192
    · exact .inr (.inl ⟨⟨s.txpos.val, h⟩, rfl, rfl, by simp [h]⟩)
    · exact .inr (.inr ⟨rfl, by omega, by simp [h]⟩)

theorem tick_idle {p : Params} {s : State} (h : s.busy = false) : tick p s = s := by simp [tick, h]

theorem tick_emit {p : Params} {s : State} (k : Fin 192) (hb : s.busy = true) (hk : s.txpos.val = k.val) :
    tick p s = emitHalfSymbol p s k := by
  have h : s.txpos.val < 192 := by omega
  simp only [tick, hb, if_true, h, dif_pos]
  congr 1
  exact Fin.ext hk

theorem tick_last {p : Params} {s : State} (hb : s.busy = true) (hk : s.txpos.val = 192) :
    tick p s = endTransmission s := by
  simp [tick, hb, hk]

/-! ## The step -/

/-- Everything a step can do that answers a next state: no input left, or one of the four kinds of step, or a sample with
no effect (10_state.md R25). -/
theorem step_cases {s t : State} (h : step s = .next t) :
    (s.inputs = [] ∧ t = s) ∨
    ∃ x rest, s.inputs = x :: rest ∧
      ((x.reset = true ∧ t = deviceReset Config.params { s with inputs := rest }) ∨
       (x.reset = false ∧ s.busy = true ∧ x.tick = true ∧ t = tick Config.params { s with inputs := rest }) ∨
       (x.reset = false ∧ (s.busy && x.tick) = false ∧
         ((x.host = none ∧ t = { s with inputs := rest }) ∨
          (∃ c, x.host = some (.setTimer c) ∧ t = hostTimerStep c { s with inputs := rest }) ∨
          (∃ bytes i, x.host = some (.command bytes) ∧ decode bytes = .ok i ∧
            exec i { s with inputs := rest } = .next t) ∨
          (∃ bytes e, x.host = some (.command bytes) ∧ decode bytes = .error e ∧ s.busy = true ∧
            t = { s with inputs := rest })))) := by
  unfold step takeNextInput at h
  split at h
  · rename_i he
    cases h
    exact .inl ⟨he, rfl⟩
  · rename_i x rest he
    refine .inr ⟨x, rest, he, ?_⟩
    unfold takeInput at h
    split at h
    · rename_i hr
      cases h
      exact .inl ⟨hr, rfl⟩
    · rename_i hr
      have hr : x.reset = false := by simpa using hr
      split at h
      · rename_i ht
        cases h
        rw [Bool.and_eq_true] at ht
        exact .inr (.inl ⟨hr, ht.1, ht.2, rfl⟩)
      · rename_i ht
        refine .inr (.inr ⟨hr, by simpa using ht, ?_⟩)
        split at h
        · rename_i hn
          cases h
          exact .inl ⟨hn, rfl⟩
        · rename_i a ha
          cases a with
          | setTimer c =>
            simp only [hostAct] at h
            cases h
            exact .inr (.inl ⟨c, ha, rfl⟩)
          | command bytes =>
            simp only [hostAct, issue] at h
            split at h
            · rename_i i hd
              exact .inr (.inr (.inl ⟨bytes, i, ha, hd, h⟩))
            · rename_i e hd
              rcases accept_next h with ⟨hb, ht⟩ | ⟨_, h⟩
              · exact .inr (.inr (.inr ⟨bytes, e, ha, hd, hb, ht⟩))
              · cases h

/-- A step is refused only for a command presented to an idle block, with no reset beside it. -/
theorem step_refused {s : State} {r : Refusal} (h : step s = .refused r) :
    ∃ x rest bytes, s.inputs = x :: rest ∧ x.reset = false ∧ x.host = some (.command bytes) ∧
      issue bytes { s with inputs := rest } = .refused r := by
  unfold step takeNextInput at h
  split at h
  · cases h
  · rename_i x rest he
    unfold takeInput at h
    split at h
    · cases h
    · rename_i hr
      split at h
      · cases h
      · split at h
        · cases h
        · rename_i a ha
          cases a with
          | setTimer c => simp [hostAct] at h
          | command bytes => exact ⟨x, rest, bytes, he, by simpa using hr, ha, h⟩

/-- Everything a command can do that answers a next state, by family: it is not taken, or it has its effect. -/
theorem exec_cases {i : Instr} {s t : State} (h : exec i s = .next t) :
    (s.busy = true ∧ t = s) ∨
    (s.busy = false ∧ i.wellFormed = true ∧
      match i with
      | .nsum mask =>
        t = { s with sumr := nsumRegister (s.frame Config.params) mask, res := nsum (s.frame Config.params) mask }
      | .crc8 init mask =>
        t = { s with
          crcr := crc8 (s.frame Config.params) mask init, res := crc8 (s.frame Config.params) mask init }
      | .setch a => t = rmw Config.params 4 0xF0 (nibbles (channelCode a) 0) s
      | .setid a => t = rmw Config.params 5 0xFF a s
      | .settemp sm => t = writeTemperature Config.params sm s
      | .sethum a => t = writeHumidity Config.params a s
      | .setbat a =>
        t = rmw Config.params 6 (Config.params.lowbatBits.setWidth 8)
          (if a.getLsbD 0 then Config.params.lowbatBits.setWidth 8 else 0) s
      | .final => t = writeCrc Config.params (writeChecksum Config.params s)
      | .tx => t = startTransmission Config.params s) := by
  cases i <;> simp only [exec, execNsum, execCrc8, execSetch, execSetid, execSettemp, execSethum, execSetbat, execFinal,
    execTx, nsumCommand, crc8Command, setChannel, setRollingId, setTemperature, setHumidity, setLowBattery, finalize,
    transmit] at h <;> (rcases accept_next h with h | ⟨hb, h⟩; · exact .inl h) <;> refine .inr ⟨hb, ?_⟩
  case setid | settemp | sethum | final | tx => cases h; exact ⟨rfl, rfl⟩
  all_goals
    split at h
    · rename_i hw
      cases h
      exact ⟨hw, rfl⟩
    · cases h

/-! ## The effects of commands on an idle block, in terms of the shared operations -/

theorem exec_nsum_idle {s : State} {mask : BitVec 64} (h : s.busy = false) (hm : maskDefined mask = true) :
    exec (.nsum mask) s = .next { s with
      sumr := nsumRegister (s.frame Config.params) mask, res := nsum (s.frame Config.params) mask } :=
  (accept_idle h).trans (if_pos hm)

theorem exec_crc8_idle {s : State} {init : Byte} {mask : BitVec 64} (h : s.busy = false)
    (hm : maskDefined mask = true) :
    exec (.crc8 init mask) s = .next { s with
      crcr := crc8 (s.frame Config.params) mask init, res := crc8 (s.frame Config.params) mask init } :=
  (accept_idle h).trans (if_pos hm)

theorem exec_setch_idle {s : State} {a : Byte} (h : s.busy = false) (ha : channelDefined a = true) :
    exec (.setch a) s = .next (rmw Config.params 4 0xF0 (nibbles (channelCode a) 0) s) :=
  (accept_idle h).trans (if_pos ha)

theorem exec_setid_idle {s : State} {a : Byte} (h : s.busy = false) :
    exec (.setid a) s = .next (rmw Config.params 5 0xFF a s) :=
  accept_idle h

theorem exec_settemp_idle {s : State} {sm : BitVec 16} (h : s.busy = false) :
    exec (.settemp sm) s = .next (writeTemperature Config.params sm s) :=
  accept_idle h

theorem exec_sethum_idle {s : State} {a : Byte} (h : s.busy = false) :
    exec (.sethum a) s = .next (writeHumidity Config.params a s) :=
  accept_idle h

theorem exec_setbat_idle {s : State} {a : Byte} (h : s.busy = false) (ha : batteryDefined a = true) :
    exec (.setbat a) s = .next (rmw Config.params 6 (Config.params.lowbatBits.setWidth 8)
      (if a.getLsbD 0 then Config.params.lowbatBits.setWidth 8 else 0) s) :=
  (accept_idle h).trans (if_pos ha)

theorem exec_final_idle {s : State} (h : s.busy = false) :
    exec .final s = .next (writeCrc Config.params (writeChecksum Config.params s)) :=
  accept_idle h

theorem exec_tx_idle {s : State} (h : s.busy = false) :
    exec .tx s = .next (startTransmission Config.params s) :=
  accept_idle h

/-- A host timer step sets the timer of an idle block, or has no effect (10_state.md R28). -/
theorem hostTimerStep_cases (c : TimerCfg) (s : State) :
    (s.busy = true ∧ hostTimerStep c s = s) ∨ (s.busy = false ∧ hostTimerStep c s = { s with tcfg := c }) := by
  cases h : s.busy <;> simp [hostTimerStep, h]

/-! ### Runs of any machine -/

/-- One step that answers a next state, then the rest of the run. -/
theorem run_of_step (M : Host.Core) (k : Nat) (s t : M.State) (h : M.step s = .next t) : M.run (k + 1) s = M.run k t := by
  rw [Host.Core.run, h]

/-- A run that answers a next state may be continued from it. -/
theorem run_add (M : Host.Core) (a b : Nat) (s t : M.State) (h : M.run a s = .next t) :
    M.run (a + b) s = M.run b t := by
  induction a generalizing s with
  | zero =>
    rw [Host.Core.run] at h
    cases h
    rw [Nat.zero_add]
  | succ a ih =>
    rw [Nat.succ_add, Nat.succ_eq_add_one, Host.Core.run]
    rw [Host.Core.run] at h
    cases hs : M.step s with
    | next u => rw [hs] at h; exact ih u h
    | fault r => rw [hs] at h; cases h
    | refused r => rw [hs] at h; cases h

end Sys2Proof.Machine
end

