-- ==== Sys2Proof/Laws/PerInstr.lean ====
section
/-! SUPPORT. Facts about every command as syntax, one lemma per constructor. -/

namespace Sys2Proof.Laws.EncodedLength

/-- A command's bytes are never empty and as many as its opcode byte alone asks for (30_encoding.md R50). -/
def Statement (i : Instr) : Prop :=
  ∃ opcode operands, encode i = opcode :: operands ∧ commandLength opcode = some (encode i).length

theorem nsum (mask : BitVec 64) : Statement (.nsum mask) := ⟨_, _, rfl, by simp [encode, commandLength, opcodeRow, opcodeRows]⟩

theorem crc8 (init : BitVec 8) (mask : BitVec 64) : Statement (.crc8 init mask) :=
  ⟨_, _, rfl, by simp [encode, commandLength, opcodeRow, opcodeRows]⟩

theorem setch (a : BitVec 8) : Statement (.setch a) := ⟨_, _, rfl, rfl⟩

theorem setid (a : BitVec 8) : Statement (.setid a) := ⟨_, _, rfl, rfl⟩

theorem settemp (sm : BitVec 16) : Statement (.settemp sm) := ⟨_, _, rfl, rfl⟩

theorem sethum (a : BitVec 8) : Statement (.sethum a) := ⟨_, _, rfl, rfl⟩

theorem setbat (a : BitVec 8) : Statement (.setbat a) := ⟨_, _, rfl, rfl⟩

theorem final : Statement .final := ⟨_, _, rfl, rfl⟩

theorem tx : Statement .tx := ⟨_, _, rfl, rfl⟩

end Sys2Proof.Laws.EncodedLength
end

