-- ==== Sys2Proof/Tests/Slice0.lean ====
section
/-! SUPPORT. Tests. Expected values are the vectors of 95_test_vectors.md (section named in each comment), computed there
from the rules, on the reference parameters P0; then, for every statement with hypotheses, concrete values that meet them
all. -/

namespace Sys2Proof.Tests

open Sys2Proof.Machine

set_option Elab.async false

/-! ## Helpers -/

/-- A state whose frame reads as these bytes under P0. -/
def holding (bytes : List Byte) : State :=
  { State.resetAt Params.p0 with
    mem := (List.finRange 12).foldl (fun m j => Memory.write Params.p0 m j (bytes.getD j.val 0)) [] }

/-- The state a command answers, if it answers one. -/
def answered (r : Result) : Option State :=
  match r with
  | .next t => some t
  | _ => none

/-- The reason of a refusal, if it is one. -/
def refusal (r : Result) : Option Refusal :=
  match r with
  | .refused e => some e
  | _ => none

/-- Bytes `first` to `upto` (not included) of the frame a command leaves, under P0. -/
def bytesAfter (first upto : Nat) (r : Result) : Option (List Byte) :=
  (answered r).map fun t => ((List.ofFn (t.frame Params.p0)).take upto).drop first

/-- What is left in `RES`. -/
def resAfter (r : Result) : Option Byte :=
  (answered r).map (·.res)

/-- The reset state under P0. -/
def rst : State := State.resetAt Params.p0

/-- The reference frame REF of section 2.2. -/
def refBytes : List Byte := [0xFF, 0xFF, 0x1A, 0x2D, 0x10, 0xBB, 0x74, 0x22, 0x00, 0x73, 0x4A, 0x55]

/-- A busy block at a position, its timer borrowed. -/
def sending (k : Fin 193) : State :=
  { State.reset with busy := true, txpos := k, tcfg := Config.params.periodicCfg }

/-- A sample with a tick and nothing else. -/
def tickInput : Input := { tick := true }

/-- A sample with a reset, a tick and a command at once. -/
def resetInput : Input := { reset := true, tick := true, host := some (.command [0x20]) }

/-! ## Well-formedness: each check refuses an ill-formed term -/

theorem test_nsum_mask_bit24_illFormed : (Instr.nsum 0x1000000).wellFormed = false := by decide
theorem test_nsum_mask_bit63_illFormed : (Instr.nsum 0x8000000000000000).wellFormed = false := by decide
theorem test_nsum_full_mask_wellFormed : (Instr.nsum 0xFFFFFF).wellFormed = true := by decide
theorem test_crc8_mask_bit24_illFormed : (Instr.crc8 0x09 0x1000000).wellFormed = false := by decide
theorem test_crc8_mask_bit63_illFormed : (Instr.crc8 0x09 0x8000000000000000).wellFormed = false := by decide
theorem test_setch_illFormed :
    (Instr.setch 0).wellFormed = false ∧ (Instr.setch 4).wellFormed = false ∧ (Instr.setch 255).wellFormed = false := by
  decide
theorem test_setch_wellFormed : (Instr.setch 1).wellFormed = true ∧ (Instr.setch 3).wellFormed = true := by decide
theorem test_setbat_illFormed : (Instr.setbat 2).wellFormed = false ∧ (Instr.setbat 128).wellFormed = false := by decide

/-! ## Decoding, from the words of section 2.12 -/

theorem test_decode_nsum : (decode [0x01, 0xF0, 0xFF, 0x0F, 0, 0, 0, 0, 0]).toOption = some (.nsum 0xFFFF0) := by decide
theorem test_decode_crc8 :
    (decode [0x02, 0x09, 0xF0, 0xFF, 0x3F, 0, 0, 0, 0, 0]).toOption = some (.crc8 0x09 0x3FFFF0) := by decide
theorem test_decode_setch : (decode [0x10, 0x03]).toOption = some (.setch 3) := by decide
theorem test_decode_setid : (decode [0x11, 0xBB]).toOption = some (.setid 0xBB) := by decide
theorem test_decode_settemp_plus : (decode [0x12, 0xE3, 0x00]).toOption = some (.settemp 227) := by decide
theorem test_decode_settemp_minus : (decode [0x12, 0x35, 0x80]).toOption = some (.settemp 0x8035) := by decide
theorem test_decode_sethum : (decode [0x13, 0x1E]).toOption = some (.sethum 30) := by decide
theorem test_decode_setbat : (decode [0x14, 0x01]).toOption = some (.setbat 1) := by decide
theorem test_decode_final : (decode [0x15]).toOption = some .final := by decide
theorem test_decode_tx : (decode [0x20]).toOption = some .tx := by decide

/-- The reserved first bytes of section 2.12. -/
theorem test_decode_reserved :
    ([0x00, 0x03, 0x0F, 0x16, 0x1F, 0x21, 0xFF] : List Byte).all
      (fun b => decide ((opcodeRow b).isNone = true) && ((decode [b, 0, 0]).toOption == none)) = true := by decide

/-- Too short, too long, empty (30_encoding.md R50). -/
theorem test_decode_lengths :
    (decode [0x12, 0xE3]).toOption = none ∧ (decode [0x15, 0x00]).toOption = none ∧ (decode []).toOption = none := by
  decide

/-- The opcode table's words with every operand bit 0, as opcode_table.json numbers the bits. -/
theorem test_table_words :
    decodeTableWord 72 0x01 = some (.nsum 0) ∧ decodeTableWord 80 0x02 = some (.crc8 0 0) ∧
    decodeTableWord 16 0x10 = some (.setch 0) ∧ decodeTableWord 16 0x11 = some (.setid 0) ∧
    decodeTableWord 24 0x12 = some (.settemp 0) ∧ decodeTableWord 16 0x13 = some (.sethum 0) ∧
    decodeTableWord 16 0x14 = some (.setbat 0) ∧ decodeTableWord 8 0x15 = some .final ∧
    decodeTableWord 8 0x20 = some .tx := by decide

/-- Operand bits in their places: `sm` is bits 23 to 8, `init` bits 15 to 8, `mask` bits 79 to 16. -/
theorem test_table_word_fields :
    decodeTableWord 24 0x803512 = some (.settemp 0x8035) ∧
    decodeTableWord 80 0x3FFFF00902 = some (.crc8 0x09 0x3FFFF0) ∧
    decodeTableWord 72 0xFFFF001 = some (.nsum 0xFFFF0) := by decide

/-! ## ENGINE (sections 2.1 to 2.4) -/

theorem test_nsum_preamble : resAfter (nsumCommand Params.p0 0xF rst) = some 0x3C := by decide +kernel
/-- Section 2.2, ONES: 24 nibbles, total 360, folded. -/
theorem test_nsum_folds : nsum (fun _ => 0xFF) 0xFFFFFF = 0x69 ∧ nsum (fun _ => 0xFF) 0x03FFFF = 0x0F := by decide +kernel
theorem test_crc8_single_nibble : resAfter (crc8Command Params.p0 0x00 0x10 rst) = some 0x36 := by decide +kernel
/-- Section 2.3: the order of two nibbles, and REF's value under P0. -/
theorem test_crc8_order :
    crc8 (rst.frame Params.p0) 0x30 0x00 = 0x6E ∧
    crc8 ((holding refBytes).frame Params.p0) 0x3FFFF0 0x09 = 0x55 := by decide +kernel

/-! ## ENCODER (sections 2.6 to 2.9) -/

theorem test_setch_one_hot :
    bytesAfter 4 7 (setChannel Params.p0 3 (holding [0xFF, 0xFF, 0x1A, 0x2D, 0x20])) = some [0x40, 0, 0] := by
  decide +kernel
theorem test_setch_refused : refusal (setChannel Params.p0 4 rst) = some (.channelUndefined 4) := by decide +kernel
theorem test_setid : bytesAfter 4 7 (setRollingId Params.p0 0xA5 rst) = some [0x00, 0xA5, 0x00] := by decide +kernel
/-- Section 2.7: minus 5.3 beside a set flag and a humidity digit 7. -/
theorem test_settemp_preserves :
    bytesAfter 6 9 (setTemperature Params.p0 0x8035 (holding [0xFF, 0xFF, 0x1A, 0x2D, 0, 0, 0x04, 0, 0x70]))
      = some [0x34, 0x05, 0x78] := by decide +kernel
theorem test_settemp_wraps : bytesAfter 6 9 (setTemperature Params.p0 0xFFFF rst) = some [0x70, 0x76, 0x08] := by
  decide +kernel
/-- Section 2.8: 47 beside a negative sign and hundreds 3. -/
theorem test_sethum_preserves :
    bytesAfter 8 10 (setHumidity Params.p0 47 (holding [0xFF, 0xFF, 0x1A, 0x2D, 0, 0, 0, 0, 0x0B, 0x70]))
      = some [0x7B, 0x74] := by decide +kernel
theorem test_sethum_hundred : bytesAfter 8 10 (setHumidity Params.p0 100 rst) = some [0x00, 0x70] := by decide +kernel
theorem test_setbat_clears :
    bytesAfter 6 7 (setLowBattery Params.p0 0 (holding [0xFF, 0xFF, 0x1A, 0x2D, 0, 0, 0x74])) = some [0x70] := by
  decide +kernel
theorem test_setbat_sets :
    bytesAfter 6 7 (setLowBattery Params.p0 1 (holding [0xFF, 0xFF, 0x1A, 0x2D, 0, 0, 0x70])) = some [0x74] := by
  decide +kernel
/-- Section 2.9: on the reset frame the CRC sees the new checksum. -/
theorem test_final_order : bytesAfter 10 12 (finalize Params.p0 rst) = some [0x21, 0x06] := by decide +kernel
/-- Section 2.9: whatever stood in bytes 10 and 11. -/
theorem test_final_reference :
    bytesAfter 10 12
      (finalize Params.p0 (holding [0xFF, 0xFF, 0x1A, 0x2D, 0x10, 0xBB, 0x74, 0x22, 0x00, 0x73, 0x99, 0x99]))
      = some [0x4A, 0x55] := by decide +kernel

/-! ## TRANSMITTER (sections 2.10 and 2.11) -/

/-- The level a tick leaves at a position, on the frame REF. -/
def pinAfterTick (k : Fin 193) : Bool :=
  (tick Params.p0 { holding refBytes with busy := true, txpos := k }).pin

/-- Ticks 1, 2, 33, 34, 192 and 193 of section 2.11. -/
theorem test_ticks :
    pinAfterTick 0 = true ∧ pinAfterTick 1 = false ∧ pinAfterTick 32 = false ∧ pinAfterTick 33 = true ∧
    pinAfterTick 191 = true ∧ pinAfterTick 192 = false := by decide +kernel

/-- Byte 2, 0x1A, as section 2.10 has it: 01 10 01 10 10 01 01 01. -/
theorem test_wave_of_0x1A :
    ((waveOf (rst.frame Params.p0)).drop 32).take 16 =
      [false, true, true, false, false, true, true, false, true, false, false, true, false, true, false, true] := by
  decide +kernel

/-- `TX`, section 2.11: the first two rows, for any configurations `c` and `d`. -/
theorem test_tx_borrows (c d : TimerCfg) :
    (answered (transmit { Params.p0 with periodicCfg := d } { rst with tcfg := c })).map
        (fun t => (t.busy, t.txpos, t.pin, t.tcfg, t.tsave)) = some (true, 0, false, d, c) := rfl

/-- The last tick gives the timer back. -/
theorem test_last_tick_restores (c d : TimerCfg) :
    (tick Params.p0 { rst with busy := true, txpos := 192, tcfg := d, tsave := c }).tcfg = c := rfl

/-- A reset in mid-transmission does not restore the snapshot (70_reset_and_hazards.md R158). -/
theorem test_reset_while_busy (c r : TimerCfg) :
    (fun t : State => (t.busy, t.pin, t.txpos, t.tcfg, t.wave))
        (deviceReset { Params.p0 with tcfgReset := r }
          { rst with busy := true, pin := true, txpos := 5, tsave := c, wave := [true] })
      = (false, false, 0, r, []) := rfl

/-! ## The host's side (sections 2.5 and 30_encoding.md R61) -/

theorem test_temperature_operands :
    tempOperand (-1 / 25) = some 0x8000 ∧ tempOperand (2279 / 100) = some 0x00E3 ∧
    tempOperand (-53 / 10) = some 0x8035 ∧ tempOperand (16384 / 5) = none := by decide +kernel

theorem test_humidity_operands :
    humOperand (59 / 2) = some 30 ∧ humOperand (152 / 5) = some 30 ∧ humOperand (199 / 2) = some 100 ∧
    humOperand (-1) = none ∧ humOperand (511 / 2) = none := by decide +kernel

theorem test_assembly :
    assembly (.nsum 0xFFFF0) = "NSUM 0xFFFF0" ∧ assembly (.settemp 0x8035) = "SETTEMP -53" ∧
    assembly (.settemp 227) = "SETTEMP +227" ∧ assembly (.setid 0xBB) = "SETID 0xBB" := by decide +kernel

/-! ## Witnesses: concrete values that meet the hypotheses of each statement -/

theorem witness_EncodeInvertsDecode : decode [0x12, 0x35, 0x80] = .ok (.settemp 0x8035) := rfl

/-- A three-byte command cut after one byte and after two, and one byte too many. -/
theorem witness_WrongLengthsAreRejected :
    encode (.settemp 0x8035) = 0x12 :: [0x35, 0x80] ∧ 0 < [0x35, 0x80].length ∧ 1 < [0x35, 0x80].length ∧
    ([0x00] : List Byte) ≠ [] := by decide

theorem witness_ReservedOpcodesAreRejected :
    (∀ b ∈ ([0x00, 0x03, 0x0F, 0x16, 0x1F, 0x21, 0xFF] : List Byte),
      b ∉ ([0x01, 0x02, 0x10, 0x11, 0x12, 0x13, 0x14, 0x15, 0x20] : List Byte)) ∧ State.reset.busy = false := by
  refine ⟨by decide, rfl⟩

/-- An idle block, a tick beside the command; and a busy block with no tick beside it. -/
theorem witness_StepRunsTheDecodedCommand :
    (∃ s : State, ∃ x : Input, s.busy = false ∧ s.inputs = x :: [] ∧ x.reset = false ∧ (s.busy && x.tick) = false ∧
      x.host = some (.command [0x15]) ∧ decode [0x15] = .ok .final) ∧
    ∃ s : State, ∃ x : Input, s.busy = true ∧ s.inputs = x :: [] ∧ x.reset = false ∧ (s.busy && x.tick) = false ∧
      x.host = some (.command [0x15]) ∧ decode [0x15] = .ok .final :=
  ⟨⟨{ State.reset with inputs := [{ tick := true, host := some (.command [0x15]) }] }, _, rfl, rfl, rfl, rfl, rfl, rfl⟩,
   ⟨{ sending 5 with inputs := [Input.command [0x15]] }, _, rfl, rfl, rfl, rfl, rfl, rfl⟩⟩

theorem witness_FetchWordIsRunNext : decodeTableWord 24 0x803512 = some (.settemp 0x8035) := by decide

theorem witness_BusyBlockTakesNoCommand :
    ∃ s : State, ∃ x : Input, s.busy = true ∧ s.inputs = x :: [] ∧ x.reset = false ∧ x.tick = false ∧
      x.host = some (.command [0x11, 0xBB]) :=
  ⟨{ sending 192 with inputs := [Input.command [0x11, 0xBB]] }, _, rfl, rfl, rfl, rfl, rfl⟩

/-- Used for every statement whose one hypothesis is an idle block. -/
theorem witness_idle : State.reset.busy = false := rfl

/-- A reserved opcode, and an operand the command does not define. -/
theorem witness_OnlyNonCommandsAreRefused :
    step (presentCommand [0x00] State.reset) = .refused (.undecodable (.reservedOpcode 0x00)) ∧
    step (presentCommand [0x10, 0x00] State.reset) = .refused (.channelUndefined 0) := ⟨rfl, rfl⟩

theorem witness_NoInputChangesNothing : State.reset.inputs = [] := rfl

/-- A finished run with a host timer step still to come. -/
theorem witness_FinishedRunStaysQuiescent :
    ∃ s : State, ∃ x y : Input, runOver s = true ∧ s.inputs = [x, y] ∧ x.reset = false ∧ x.host = some (.setTimer TimerCfg.known) ∧
      y.host = none :=
  ⟨{ State.reset with inputs := [{ host := some (.setTimer TimerCfg.known) }, tickInput] }, _, _, rfl, rfl, rfl, rfl, rfl⟩

/-- 17 nibbles of 15 add to 255, 18 to 270; a selection in another order; a mask of at most 17 bits. -/
theorem witness_NibbleSumClosedForm :
    nibbleTotal (fun _ => 0xFF) 0x01FFFF ≤ 255 ∧ 256 ≤ nibbleTotal (fun _ => 0xFF) 0x03FFFF ∧
    (selected 0xF).reverse.Perm (selected 0xF) ∧ (selected 0x01FFFF).length ≤ 17 := by
  refine ⟨by decide +kernel, by decide +kernel, List.reverse_perm _, by decide +kernel⟩

/-- The empty mask and the full one. -/
theorem witness_defined_masks :
    State.reset.busy = false ∧ (∀ i, 24 ≤ i → (0 : BitVec 64).getLsbD i = false) ∧
    (∀ i, 24 ≤ i → (0xFFFFFF : BitVec 64).getLsbD i = false) := by
  refine ⟨rfl, fun i _ => by simp, fun i h => ?_⟩
  by_cases hi : i < 64
  · interval_cases i <;> rfl
  · exact BitVec.getLsbD_of_ge _ _ (by omega)

theorem witness_CrcIsAffineAndBijective :
    (selected 0xF).length = (selected 0xF0).length ∧ (0x12 : Byte) ^^^ 0x34 = 0x56 ^^^ 0x70 := by decide +kernel

theorem witness_MasksBeyondTheFrameAreRefused :
    State.reset.busy = false ∧ (0x1000000 : BitVec 64).getLsbD 24 = true ∧
    (0x8000000000000000 : BitVec 64).getLsbD 63 = true := ⟨rfl, rfl, rfl⟩

/-- Two frames that differ, in nibbles the mask does not select. -/
theorem witness_DigestsReadOnlySelectedNibbles :
    ∃ F G : Frame, F ≠ G ∧ ∀ i : Fin 24, (0xFFFF0 : BitVec 64).getLsbD i.val = true → nib F i = nib G i :=
  ⟨fun _ => 0, fun j => if j = 11 then 1 else 0, fun h => absurd (congrFun h 11) (by decide), by decide +kernel⟩

/-- Channels 1 and 3, and 0, 4 and 255. -/
theorem witness_SetchWritesOneHotCode :
    State.reset.busy = false ∧ 1 ≤ (1 : Byte).toNat ∧ (1 : Byte).toNat ≤ 3 ∧ 1 ≤ (3 : Byte).toNat ∧ (3 : Byte).toNat ≤ 3 ∧
    (0 : Byte).toNat = 0 ∧ 4 ≤ (4 : Byte).toNat ∧ 4 ≤ (255 : Byte).toNat := ⟨rfl, by decide⟩

/-- Minus zero, the largest positive and the largest negative operand. -/
theorem witness_SettempPacksDigitsAndSign :
    State.reset.busy = false ∧ 0 = (0x8000 : BitVec 16).toNat % 32768 ∧ 32767 = (0x7FFF : BitVec 16).toNat % 32768 ∧
    32767 = (0xFFFF : BitVec 16).toNat % 32768 := ⟨rfl, by decide⟩

theorem witness_SetbatSetsFlagBits :
    State.reset.busy = false ∧ (0 : Byte).toNat ≤ 1 ∧ (1 : Byte).toNat ≤ 1 ∧ 2 ≤ (2 : Byte).toNat ∧
    2 ≤ (255 : Byte).toNat := ⟨rfl, by decide⟩

theorem witness_CommandsKeepBitsTheyDoNotOwn : ∃ t, exec (.setid 0xA5) State.reset = .next t := ⟨_, rfl⟩

/-- Two sequences of different length that give each field the same last command; two setters of different fields. -/
theorem witness_FrameDependsOnLastSetterOfEachField :
    State.reset.busy = false ∧
    (∀ i ∈ [Instr.setch 1, .setid 5, .setch 3, .setbat 1] ++ [.setbat 1, .setch 3, .setid 5],
      (setterField i).isSome ∧ i.wellFormed = true) ∧
    (∀ f, ([Instr.setch 1, .setid 5, .setch 3, .setbat 1].filter fun i => setterField i == some f).getLast?
      = ([Instr.setbat 1, .setch 3, .setid 5].filter fun i => setterField i == some f).getLast?) ∧
    setterField (.settemp 0) ≠ setterField (.setbat 1) := by
  refine ⟨rfl, by decide, fun f => ?_, by decide⟩
  rcases f with _ | _ | _ | _ | _ | f <;> rfl

theorem witness_PackedFieldsRoundTrip :
    State.reset.busy = false ∧ 0 ≤ 3999 ∧ 3999 ≤ 3999 ∧ 99 ≤ 99 ∧ 1 ≤ 1 ∧ 3 ≤ 3 := ⟨rfl, by decide⟩

/-- P0's masks stay clear of the bytes `FINAL` writes. -/
theorem witness_p0_masks :
    State.reset.busy = false ∧ (∀ i, 20 ≤ i → Params.p0.sumMask.getLsbD i = false) ∧
    (∀ i, 22 ≤ i → Params.p0.crcMask.getLsbD i = false) := by
  refine ⟨rfl, fun i h => ?_, fun i h => ?_⟩
  · by_cases hi : i < 64
    · interval_cases i <;> rfl
    · exact BitVec.getLsbD_of_ge _ _ (by omega)
  · by_cases hi : i < 64
    · interval_cases i <;> rfl
    · exact BitVec.getLsbD_of_ge _ _ (by omega)

/-- The reference frame is finalized under P0; a setter that writes what is there leaves it. -/
theorem witness_FinalizedAfterFinal :
    ∃ t, (setterField (.setid 0xBB)).isSome ∧ setterCommand Params.p0 (.setid 0xBB) (holding refBytes) = .next t ∧
      t.frame Params.p0 = (holding refBytes).frame Params.p0 ∧
      Finalized Params.p0 ((holding refBytes).frame Params.p0) :=
  ⟨_, rfl, rfl, by decide +kernel, by decide +kernel⟩

/-- Setters, an engine command and a transmission, none of them `SETCH`. -/
theorem witness_ResetStateHasTheStatedValues :
    ∀ i ∈ [Instr.setid 5, .nsum 0xFFFFFF, .settemp 0x8035, .tx], i.wellFormed = true ∧ ∀ a, i ≠ .setch a := by
  simp [Instr.wellFormed, maskDefined]

/-- What is no number, and a number without an operand. -/
theorem witness_reports_without_expansion :
    settempf .nonNumber = none ∧ settempf (.rational (16384 / 5)) = none ∧ sethumf .nonNumber = none ∧
    sethumf (.rational (-1)) = none := by decide +kernel

theorem witness_ReferenceReadingHasKnownDigests : State.reset.busy = false ∧ State.reset.mem = [] := ⟨rfl, rfl⟩

/-- A setter changes the frame. -/
theorem witness_OnlyEncoderCommandsAndResetChangeTheFrame :
    ∃ t, step (presentCommand [0x11, 0xBB] State.reset) = .next t ∧
      t.bytes ≠ (presentCommand [0x11, 0xBB] State.reset).bytes :=
  ⟨_, rfl, fun h => absurd (congrFun h 5) (by decide)⟩

/-- Minus 5.3, the last number with an operand to two decimals, and the first without. -/
theorem witness_TemperatureOperandTruncates :
    |(-53 / 10 : ℚ)| * 10 < 32768 ∧ |(327679 / 100 : ℚ)| * 10 < 32768 ∧ 32768 ≤ |(16384 / 5 : ℚ)| * 10 := by
  refine ⟨?_, ?_, ?_⟩ <;> norm_num [abs_of_nonneg, abs_of_neg]

theorem witness_HumidityOperandRoundsHalfUp :
    (0 : ℚ) ≤ 0 ∧ (0 : ℚ) < 511 / 2 ∧ (25549 / 100 : ℚ) < 511 / 2 ∧ (-1 / 100 : ℚ) < 0 ∧ (511 / 2 : ℚ) ≤ 511 / 2 := by
  norm_num

theorem witness_EncodedReportHoldsTheReading :
    State.reset.busy = false ∧ 1 ≤ (3 : Byte).toNat ∧ (3 : Byte).toNat ≤ 3 ∧ |(-3999 / 10 : ℚ)| < 400 ∧
    (0 : ℚ) ≤ 994 / 10 ∧ (994 / 10 : ℚ) < 199 / 2 := by
  refine ⟨rfl, by decide, by decide, ?_, ?_, ?_⟩ <;> norm_num [abs_of_neg]

/-- The first and the last half-symbol of the reset frame. -/
theorem witness_TickEmitsOneHalfSymbol :
    (∃ s : State, ∃ x : Input, s.inputs = x :: [] ∧ x.reset = false ∧ x.tick = true ∧ s.busy = true ∧ s.txpos.val = 0 ∧
      true = ((s.bytes 0).getLsbD 0 ^^ decide (0 % 2 = 1))) ∧
    ∃ s : State, ∃ x : Input, s.inputs = x :: [] ∧ x.reset = false ∧ x.tick = true ∧ s.busy = true ∧ s.txpos.val = 191 ∧
      true = ((s.bytes 11).getLsbD 7 ^^ decide (191 % 2 = 1)) :=
  ⟨⟨{ sending 0 with inputs := [tickInput] }, _, rfl, rfl, rfl, rfl, rfl, rfl⟩,
   ⟨{ sending 191 with inputs := [tickInput] }, _, rfl, rfl, rfl, rfl, rfl, rfl⟩⟩

theorem witness_LastTickEndsTheTransmission :
    ∃ s : State, ∃ x : Input, s.inputs = x :: [] ∧ x.reset = false ∧ x.tick = true ∧ s.busy = true ∧ s.txpos.val = 192 :=
  ⟨{ sending 192 with inputs := [tickInput] }, _, rfl, rfl, rfl, rfl, rfl⟩

theorem witness_IdleBlockIgnoresTicks :
    ∃ s : State, ∃ x : Input, s.busy = false ∧ s.inputs = x :: [] ∧ x.tick = true ∧ x.reset = false ∧ x.host = none :=
  ⟨{ State.reset with inputs := [tickInput] }, _, rfl, rfl, rfl, rfl, rfl⟩

/-- 193 ticks with nothing between, and 193 ticks with the host offering a command before the first. -/
theorem witness_transmissionInputs :
    transmissionInputs (List.replicate 193 tickInput) ∧
    transmissionInputs (Input.command [0x15] :: List.replicate 193 tickInput) := by
  refine ⟨⟨?_, by decide +kernel, by decide +kernel⟩, ⟨?_, by decide +kernel, by decide +kernel⟩⟩ <;> decide +kernel

theorem witness_TransmissionEmitsTheWaveOfTheFrame :
    ∃ s : State, ∃ x : Input, s.busy = false ∧ x.reset = false ∧ x.host = some (.command (encode .tx)) ∧
      transmissionInputs (List.replicate 193 tickInput) ∧ s.inputs = x :: (List.replicate 193 tickInput ++ []) :=
  ⟨{ State.reset with inputs := Input.command [0x20] :: (List.replicate 193 tickInput ++ []) }, _, rfl, rfl, rfl,
    witness_transmissionInputs.1, rfl⟩

/-- The reset frame has its constant bytes. -/
theorem witness_ConstantBits : ConstantBits Params.p0 (rst.frame Params.p0) :=
  ⟨rfl, rfl, rfl, rfl, rfl, rfl⟩

theorem witness_RepeatedTransmissionEmitsTheWaveTwice :
    ∃ s : State, ∃ x y : Input, ∃ pause : List Input, s.busy = false ∧ x.reset = false ∧
      x.host = some (.command (encode .tx)) ∧ transmissionInputs (List.replicate 193 tickInput) ∧
      (∀ z ∈ pause, z.reset = false ∧ z.host = none) ∧ y.reset = false ∧ y.host = some (.command (encode .tx)) ∧
      s.inputs = x :: (List.replicate 193 tickInput ++ pause ++ y :: (List.replicate 193 tickInput ++ [])) :=
  ⟨{ State.reset with inputs := Input.command [0x20] ::
      (List.replicate 193 tickInput ++ [Input.quiet] ++ Input.command [0x20] :: (List.replicate 193 tickInput ++ [])) },
    _, _, [Input.quiet], rfl, rfl, rfl, witness_transmissionInputs.1, by simp [Input.quiet], rfl, rfl, rfl⟩

/-- A busy block given a tick, in the middle and at the end. -/
theorem witness_BusyStepsKeepFrameAndSnapshot :
    ∃ s u : State, ∃ x : Input, s.busy = true ∧ s.inputs = x :: [] ∧ x.reset = false ∧ s.txpos = 7 ∧
      u.busy = true ∧ u.inputs = x :: [] ∧ u.txpos = 192 :=
  ⟨{ sending 7 with inputs := [tickInput] }, { sending 192 with inputs := [tickInput] }, _, rfl, rfl, rfl, rfl, rfl, rfl,
    rfl⟩

/-- By the last tick, and by a reset. -/
theorem witness_BusyEndsOnlyByLastTickOrReset :
    (∃ s t : State, s.busy = true ∧ step s = .next t ∧ t.busy = false ∧ s.inputs = [tickInput]) ∧
    ∃ s t : State, s.busy = true ∧ step s = .next t ∧ t.busy = false ∧ s.inputs = [resetInput] :=
  ⟨⟨{ sending 192 with inputs := [tickInput] }, _, rfl, rfl, rfl, rfl⟩,
   ⟨{ sending 7 with inputs := [resetInput] }, _, rfl, rfl, rfl, rfl⟩⟩

theorem witness_BusyBeginsOnlyByTx :
    ∃ s t : State, s.busy = false ∧ step s = .next t ∧ t.busy = true :=
  ⟨presentCommand [0x20] State.reset, _, rfl, rfl, rfl⟩

theorem witness_PinChangesOnlyByTickOrReset :
    ∃ s t : State, step s = .next t ∧ t.pin ≠ s.pin :=
  ⟨{ sending 0 with inputs := [tickInput] }, _, rfl, by decide⟩

theorem witness_HistoryRecordsOneLevelPerTick :
    ∃ s t : State, ∃ x : Input, s.inputs = x :: [] ∧ step s = .next t ∧ x.tick = true ∧ s.busy = true :=
  ⟨{ sending 0 with inputs := [tickInput] }, _, _, rfl, rfl, rfl, rfl⟩

/-- The write at `TX`, and the write at the last tick. -/
theorem witness_TimerChangesAreTheBlocksWrites :
    (∃ s t : State, ∃ x : Input, s.inputs = x :: [] ∧ step s = .next t ∧ x.reset = false ∧
      (∀ c, x.host ≠ some (.setTimer c)) ∧ x.host = some (.command [0x20])) ∧
    ∃ s t : State, ∃ x : Input, s.inputs = x :: [] ∧ step s = .next t ∧ x.reset = false ∧
      (∀ c, x.host ≠ some (.setTimer c)) ∧ x.tick = true ∧ s.txpos = 192 :=
  ⟨⟨presentCommand [0x20] State.reset, _, _, rfl, rfl, rfl, by simp, rfl⟩,
   ⟨{ sending 192 with inputs := [tickInput] }, _, _, rfl, rfl, rfl, by simp [tickInput], rfl, rfl⟩⟩

/-- The invariants' hypotheses: a state that meets them and whose next input starts a transmission; it keeps its memory
canonical too. -/
theorem witness_EveryStepKeepsTheInvariants :
    ∃ s t : State, Machine.Inv Config.params s ∧ Memory.wf Config.params s.mem = true ∧ step s = .next t ∧
      t.busy = true := by
  have frame : ∀ j, State.frame Config.params (presentCommand [0x20] State.reset) j
      = unlistedByte Config.params j.val := fun _ => rfl
  have high : ∀ n : Nibble, (n.setWidth 8 <<< 4 : Byte).extractLsb' 4 4 = n := by decide
  refine ⟨presentCommand [0x20] State.reset, _,
    ⟨fun _ => ⟨rfl, rfl⟩, fun h => (by cases h), ⟨frame 0, frame 1, frame 2, frame 3, ?_, ?_⟩, ?_⟩, rfl, rfl, rfl⟩
  · rw [frame]; rfl
  · rw [frame]; exact high Config.params.b9Hi
  · rw [frame]; show BitVec.extractLsb' 0 4 (0 : Byte) &&& _ = 0; simp

/-- A memory with one byte off its reset contents, and itself. -/
theorem witness_CanonicalMemoryIsDeterminedByItsBytes :
    Memory.wf Params.p0 [(4, 0x10), (9, 0x73)] = true ∧
    ∀ j, Memory.read Params.p0 [(4, 0x10), (9, 0x73)] j = Memory.read Params.p0 [(4, 0x10), (9, 0x73)] j :=
  ⟨by decide, fun _ => rfl⟩

theorem witness_HostTimerStepOnlyWhileIdle :
    ∃ s u : State, ∃ x : Input, s.inputs = x :: [] ∧ u.inputs = x :: [] ∧ x.reset = false ∧
      x.host = some (.setTimer TimerCfg.known) ∧ x.tick = false ∧ s.busy = false ∧ u.busy = true :=
  ⟨{ State.reset with inputs := [{ host := some (.setTimer TimerCfg.known) }] },
   { sending 7 with inputs := [{ host := some (.setTimer TimerCfg.known) }] }, _, rfl, rfl, rfl, rfl, rfl, rfl, rfl⟩

/-- A reset beside a tick and a command, in the middle of a transmission. -/
theorem witness_ResetWinsAndReplacesTheState :
    ∃ s : State, ∃ x : Input, s.inputs = x :: [] ∧ x.reset = true ∧ x.tick = true ∧ x.host = some (.command [0x20]) ∧
      s.busy = true :=
  ⟨{ sending 7 with inputs := [resetInput] }, _, rfl, rfl, rfl, rfl, rfl⟩

end Sys2Proof.Tests
end

section
/-! The digests read the selected nibbles of the frame and nothing else (00_scope.md R9, 40_checksum_engine.md R65). -/

namespace Sys2Proof.Machine

/-- The two frames hold the same nibble at every position the mask selects. -/
def AgreeOn (mask : BitVec 64) (F G : Frame) : Prop :=
  ∀ i : Fin 24, mask.getLsbD i.val = true → nib F i = nib G i

/-- Whatever is folded from the selected nibbles is the same for frames that agree on them. -/
theorem foldl_selected_congr {α : Type} (f : α → Nibble → α) (init : α) {F G : Frame} {mask : BitVec 64}
    (h : AgreeOn mask F G) :
    (selected mask).foldl (fun r i => f r (nib F i)) init = (selected mask).foldl (fun r i => f r (nib G i)) init :=
  List.foldl_ext _ _ _ fun r i hi => congrArg (f r) (h i (mem_selected.mp hi))

theorem nsum_congr {F G : Frame} {mask : BitVec 64} (h : AgreeOn mask F G) : nsum F mask = nsum G mask :=
  congrArg (·.setWidth 8) (foldl_selected_congr addFold 0 h)

theorem crc8_congr {F G : Frame} {mask : BitVec 64} (init : Byte) (h : AgreeOn mask F G) :
    crc8 F mask init = crc8 G mask init :=
  congrArg crcFlush (foldl_selected_congr (fun r n => crcBits r (nibbleBits n)) init h)

/-- Settles O22: both digests are folds over the selected positions. -/
theorem digestsReadOnlySelectedNibbles : Obligations.DigestsReadOnlySelectedNibbles :=
  fun _ _ _ init h => ⟨nsum_congr h, crc8_congr init h⟩

end Sys2Proof.Machine
end

section
/-! The documented example, built from the frame's reset contents, under every instantiation of the parameters
(00_scope.md R7). -/

namespace Sys2Proof.Machine

/-- The five setters of the documented example, in the order of `PRG1`: rolling ID 0xBB, channel 1, 22.7 degrees,
30 percent, low battery (00_scope.md R7). -/
def writeExample (p : Params) (s : State) : State :=
  rmw p 6 (p.lowbatBits.setWidth 8) (p.lowbatBits.setWidth 8)
    (writeHumidity p 30 (writeTemperature p 227
      (rmw p 4 0xF0 (nibbles (channelCode 1) 0) (rmw p 5 0xFF 0xBB s))))

/-- A command that completes leaves the rest to be issued in the state it answers. -/
theorem issueAll_cons {i : Instr} {is : List Instr} {s t : State} (h : exec i s = .next t) :
    issueAll (i :: is) s = issueAll is t := by
  simp only [issueAll, h]

/-- On an idle block the example's commands are its five writes, then both halves of `FINAL`. -/
theorem issueAll_example {s : State} (h : s.busy = false) :
    issueAll [.setid 0xBB, .setch 1, .settemp 227, .sethum 30, .setbat 1, .final] s =
      .next (writeCrc Config.params (writeChecksum Config.params (writeExample Config.params s))) := by
  rw [issueAll_cons (exec_setid_idle h), issueAll_cons (exec_setch_idle (by simpa using h) (by rfl)),
    issueAll_cons (exec_settemp_idle (by simpa using h)), issueAll_cons (exec_sethum_idle (by simpa using h)),
    issueAll_cons (exec_setbat_idle (by simpa using h) (by rfl)), issueAll_cons (exec_final_idle (by simpa using h))]
  rfl

/-- Byte 6 of the example: all of the flag's bits under the tenths digit 7. -/
theorem flagBits_under_seven : ∀ own : Nibble,
    (0x70#8 &&& ~~~(own.setWidth 8)) ||| own.setWidth 8 = 7#4 ++ own := by decide

/-- Byte 9 of the example: the tens digit 3 under the constant nibble of the reset contents (20_memory.md R36). -/
theorem constantNibble_over_three : ∀ hi : Nibble,
    ((hi.setWidth 8 <<< 4 : Byte) &&& 0xF0#8) ||| 0x03#8 = hi ++ 3#4 := by decide

/-- From the reset contents the setters build the documented frame, its digest bytes still 0. -/
theorem writeExample_frame (p : Params) {s : State} (h : s.mem = []) :
    (writeExample p s).frame p = referenceFrame p.lowbatBits p.b9Hi 0 0 := by
  have reset : ∀ j, s.frame p j = unlistedByte p j.val := fun j => by rw [State.frame, h]; rfl
  have positive : signNibble p (tempSign 227#16) = 0 := rfl
  funext j
  simp only [writeExample, rmw_frame p (writeHumidity ..), Function.update_apply, writeHumidity_frame,
    writeTemperature_frame, setChannel_frame, setRollingId_frame, reset]
  fin_cases j <;> simp [unlistedByte, positive, channelCode, tempMagnitude, hundredsField, decimalDigit, nibbles,
    referenceFrame, Frame.ofBytes, flagBits_under_seven, constantNibble_over_three]

theorem referenceFrame_update_ten (lowbatBits b9Hi : Nibble) (b10 b11 b : Byte) :
    Function.update (referenceFrame lowbatBits b9Hi b10 b11) 10 b = referenceFrame lowbatBits b9Hi b b11 := by
  funext j
  fin_cases j <;> rfl

/-- `FINAL` on the documented frame writes its two digests: what R7 requires of the parameters is met byte by byte. -/
theorem finalized_example (p : Params) {s : State} (h : s.frame p = referenceFrame p.lowbatBits p.b9Hi 0 0) :
    (writeCrc p (writeChecksum p s)).frame p 10 = 0x4A ∧ (writeCrc p (writeChecksum p s)).frame p 11 = 0x55 := by
  have summed : (writeChecksum p s).frame p = referenceFrame p.lowbatBits p.b9Hi 0x4A 0 := by
    rw [writeChecksum_frame, h, p.reference_sum, referenceFrame_update_ten]
  rw [writeCrc_frame, summed, p.reference_crc]
  exact ⟨rfl, rfl⟩

/-- Settles O33: the setters build the documented frame, on which R7 fixes both digests. -/
theorem referenceReadingHasKnownDigests : Obligations.ReferenceReadingHasKnownDigests :=
  fun _ hidle hmem =>
    ⟨_, issueAll_example hidle, finalized_example Config.params (writeExample_frame Config.params hmem)⟩

end Sys2Proof.Machine
end

section
/-! The step by what stands at the inputs: the equation of each kind of step (10_state.md R25,
60_exceptions.md R140). -/

namespace Sys2Proof.Machine

theorem step_of_noInput {s : State} (hin : s.inputs = []) : step s = .next s := by
  simp [step, takeNextInput, hin]

section
variable {s : State} {x : Input} {rest : List Input}

theorem step_of_reset (hin : s.inputs = x :: rest) (hreset : x.reset = true) :
    step s = .next (deviceReset Config.params { s with inputs := rest }) := by
  simp [step, takeNextInput, takeInput, hin, hreset]

theorem step_of_tick (hin : s.inputs = x :: rest) (hreset : x.reset = false) (htick : (s.busy && x.tick) = true) :
    step s = .next (tick Config.params { s with inputs := rest }) := by
  simp only [step, takeNextInput, takeInput, hin, hreset, htick, if_true, Bool.false_eq_true, if_false]

theorem step_of_noHostAct (hin : s.inputs = x :: rest) (hreset : x.reset = false)
    (htick : (s.busy && x.tick) = false) (hhost : x.host = none) : step s = .next { s with inputs := rest } := by
  simp only [step, takeNextInput, takeInput, hin, hreset, htick, hhost, Bool.false_eq_true, if_false]

theorem step_of_hostAct {a : HostAct} (hin : s.inputs = x :: rest) (hreset : x.reset = false)
    (htick : (s.busy && x.tick) = false) (hhost : x.host = some a) :
    step s = hostAct a { s with inputs := rest } := by
  simp only [step, takeNextInput, takeInput, hin, hreset, htick, hhost, Bool.false_eq_true, if_false]

end

/-- Bytes that spell a command are issued as that command. -/
theorem issue_decoded {bytes : List Byte} {i : Instr} (s : State) (h : decode bytes = .ok i) :
    issue bytes s = exec i s := by
  simp only [issue, h]

/-- The command read from a table word is the one its bytes spell. -/
theorem decodeTableWord_eq_some {nbits w : Nat} {i : Instr} :
    decodeTableWord nbits w = some i ↔ decode (tableWordBytes nbits w) = .ok i := by
  unfold decodeTableWord
  cases decode (tableWordBytes nbits w) <;> simp

theorem hostTimerStep_idle {s : State} (c : TimerCfg) (h : s.busy = false) :
    hostTimerStep c s = { s with tcfg := c } := by
  simp [hostTimerStep, h]

theorem hostTimerStep_busy {s : State} (c : TimerCfg) (h : s.busy = true) : hostTimerStep c s = s := by
  simp [hostTimerStep, h]

/-- Settles O7: the sample reaches the command port, and its bytes are issued as the command they spell. -/
theorem stepRunsTheDecodedCommand : Obligations.StepRunsTheDecodedCommand :=
  fun _ _ _ _ _ hin hreset htick hhost hdecode =>
    (step_of_hostAct hin hreset htick hhost).trans (issue_decoded _ hdecode)

/-- Settles O8: the placed word is the next input, and taking it off the list restores the state. -/
theorem fetchWordIsRunNext : Obligations.FetchWordIsRunNext :=
  fun s nbits w i hword =>
    stepRunsTheDecodedCommand (s.withFetchWord nbits w) _ s.inputs (tableWordBytes nbits w) i
      rfl rfl (Bool.and_false _) rfl (decodeTableWord_eq_some.mp hword)

/-- Settles O12: with the list of inputs empty no sample acts. -/
theorem noInputChangesNothing : Obligations.NoInputChangesNothing :=
  fun _ => step_of_noInput

/-- Settles O51: the host's act is the timer step, which acts on an idle block only. -/
theorem hostTimerStepOnlyWhileIdle : Obligations.HostTimerStepOnlyWhileIdle := by
  intro s x rest c hin hreset hhost
  constructor
  · intro hidle
    rw [step_of_hostAct hin hreset (by simp [hidle]) hhost]
    simp only [hostAct, hostTimerStep_idle, hidle]
  · intro hbusy htick
    rw [step_of_hostAct hin hreset (by simp [htick]) hhost]
    simp only [hostAct, hostTimerStep_busy, hbusy]

end Sys2Proof.Machine
end

section
/-! A run that is over (10_state.md R27). -/

namespace Sys2Proof.Machine

theorem runOver_iff {s : State} :
    runOver s = true ↔ s.busy = false ∧ ∀ x ∈ s.inputs, x.hasCommand = false := by
  simp [runOver]

/-- Without its next input, and whatever the timer's configuration, a finished run is still over. -/
theorem runOver_rest {s : State} {x : Input} {rest : List Input} (h : runOver s = true) (hin : s.inputs = x :: rest)
    (c : TimerCfg) : runOver { s with inputs := rest, tcfg := c } = true := by
  obtain ⟨hidle, hnone⟩ := runOver_iff.mp h
  exact runOver_iff.mpr ⟨hidle, fun y hy => hnone y (hin ▸ List.mem_cons_of_mem x hy)⟩

/-- Settles O13: the next sample presents no command, so it is nothing or a timer step. -/
theorem finishedRunStaysQuiescent : Obligations.FinishedRunStaysQuiescent := by
  intro s x rest hover hin hreset
  obtain ⟨hidle, hnone⟩ := runOver_iff.mp hover
  have hcommand : x.hasCommand = false := hnone x (hin ▸ List.mem_cons_self)
  have htick : (s.busy && x.tick) = false := by simp [hidle]
  cases hhost : x.host with
  | none =>
    exact ⟨_, step_of_noHostAct hin hreset htick hhost, runOver_rest hover hin s.tcfg, rfl, fun _ => rfl⟩
  | some a =>
    cases a with
    | command bytes => simp [Input.hasCommand, hhost] at hcommand
    | setTimer c =>
      obtain ⟨hstep, -⟩ := hostTimerStepOnlyWhileIdle s x rest c hin hreset hhost
      exact ⟨_, hstep hidle, runOver_rest hover hin c, rfl, nofun⟩

end Sys2Proof.Machine
end

section
/-! Who moves the transmitter's state: a command only by starting a transmission, the host's timer step never; so the
line and its history belong to the tick and the reset (10_state.md R15, R16, R21). -/

namespace Sys2Proof.Machine

/-- The two states differ at most in the frame buffer and the engine's registers. -/
def KeepsTransmitter (s t : State) : Prop :=
  t = { s with mem := t.mem, sumr := t.sumr, crcr := t.crcr, res := t.res }

namespace KeepsTransmitter
variable {s t : State} (h : KeepsTransmitter s t)
include h

theorem pin_eq : t.pin = s.pin := by rw [h]

theorem busy_eq : t.busy = s.busy := by rw [h]

theorem txpos_eq : t.txpos = s.txpos := by rw [h]

theorem tcfg_eq : t.tcfg = s.tcfg := by rw [h]

theorem wave_eq : t.wave = s.wave := by rw [h]

end KeepsTransmitter

/-- A command that answers a next state is an accepted `TX`, or leaves the transmitter and the timer as they were. -/
theorem exec_transmitter {i : Instr} {s t : State} (h : exec i s = .next t) :
    (i = .tx ∧ t = startTransmission Config.params s) ∨ KeepsTransmitter s t := by
  obtain ⟨-, rfl⟩ | ⟨-, -, heffect⟩ := exec_cases h
  · exact .inr rfl
  · cases i with
    | tx => exact .inl ⟨rfl, heffect⟩
    | _ => cases heffect; exact .inr rfl

@[simp] theorem hostTimerStep_busy_eq (c : TimerCfg) (s : State) : (hostTimerStep c s).busy = s.busy := by
  obtain ⟨-, h⟩ | ⟨-, h⟩ := hostTimerStep_cases c s <;> rw [h]

@[simp] theorem hostTimerStep_pin (c : TimerCfg) (s : State) : (hostTimerStep c s).pin = s.pin := by
  obtain ⟨-, h⟩ | ⟨-, h⟩ := hostTimerStep_cases c s <;> rw [h]

@[simp] theorem hostTimerStep_wave (c : TimerCfg) (s : State) : (hostTimerStep c s).wave = s.wave := by
  obtain ⟨-, h⟩ | ⟨-, h⟩ := hostTimerStep_cases c s <;> rw [h]

/-- A command emits nothing: `TX` itself leaves the line and the history alone (42_transmitter.md R108, R119). -/
theorem exec_keeps_line {i : Instr} {s t : State} (h : exec i s = .next t) : t.pin = s.pin ∧ t.wave = s.wave := by
  obtain ⟨-, rfl⟩ | hkeeps := exec_transmitter h
  · exact ⟨rfl, rfl⟩
  · exact ⟨hkeeps.pin_eq, hkeeps.wave_eq⟩

/-- A tick taken by a busy block records the line's new level. -/
theorem tick_wave (p : Params) {s : State} (hbusy : s.busy = true) :
    (tick p s).wave = s.wave ++ [(tick p s).pin] := by
  obtain ⟨hidle, -⟩ | ⟨k, -, -, h⟩ | ⟨-, -, h⟩ := tick_cases p s
  · simp [hbusy] at hidle
  · rw [h, emitHalfSymbol_wave, emitHalfSymbol_pin]
  · rw [h, endTransmission_wave, endTransmission_pin]

/-- With no reset and no tick that is taken, a step leaves the line and the history alone. -/
theorem step_keeps_line {s t : State} {x : Input} {rest : List Input} (hin : s.inputs = x :: rest)
    (hreset : x.reset = false) (htick : (s.busy && x.tick) = false) (h : step s = .next t) :
    t.pin = s.pin ∧ t.wave = s.wave := by
  obtain ⟨-, rfl⟩ | ⟨y, rest', hin', hkind⟩ := step_cases h
  · exact ⟨rfl, rfl⟩
  obtain ⟨rfl, rfl⟩ : x = y ∧ rest = rest' := by simpa [hin] using hin'
  obtain ⟨hr, -⟩ | ⟨-, hb, ht, -⟩ | ⟨-, -, hhost⟩ := hkind
  · simp [hreset] at hr
  · simp [hb, ht] at htick
  · obtain ⟨-, rfl⟩ | ⟨c, -, rfl⟩ | ⟨_, i, -, -, hexec⟩ | ⟨_, _, -, -, -, rfl⟩ := hhost
    · exact ⟨rfl, rfl⟩
    · exact ⟨hostTimerStep_pin .., hostTimerStep_wave ..⟩
    · simpa using exec_keeps_line hexec
    · exact ⟨rfl, rfl⟩

/-- Settles O47: of all a step can do, only an accepted `TX` answers a busy block from an idle one. -/
theorem busyBeginsOnlyByTx : Obligations.BusyBeginsOnlyByTx := by
  intro s t hidle hstep hbusy
  obtain ⟨-, rfl⟩ | ⟨x, rest, hin, hkind⟩ := step_cases hstep
  · simp [hidle] at hbusy
  obtain ⟨-, rfl⟩ | ⟨-, hb, -⟩ | ⟨hreset, -, hhost⟩ := hkind
  · simp at hbusy
  · simp [hidle] at hb
  · obtain ⟨-, rfl⟩ | ⟨c, -, rfl⟩ | ⟨bytes, i, hcommand, hdecode, hexec⟩ | ⟨_, _, -, -, hb, -⟩ := hhost
    · simp [hidle] at hbusy
    · simp [hidle] at hbusy
    · obtain ⟨rfl, -⟩ | hkeeps := exec_transmitter hexec
      · exact ⟨x, rest, bytes, hin, hreset, hcommand, hdecode⟩
      · simp [hkeeps.busy_eq, hidle] at hbusy
    · simp [hidle] at hb

/-- Settles O48: a step with neither a reset nor a tick that is taken leaves the line alone. -/
theorem pinChangesOnlyByTickOrReset : Obligations.PinChangesOnlyByTickOrReset := by
  intro s t hstep hpin
  cases hin : s.inputs with
  | nil =>
    rw [step_of_noInput hin] at hstep
    cases hstep
    exact absurd rfl hpin
  | cons x rest =>
    refine ⟨x, rest, rfl, ?_⟩
    by_contra hquiet
    obtain ⟨hreset, htick⟩ := not_or.mp hquiet
    exact hpin (step_keeps_line hin (by simpa using hreset) (by simpa using htick) hstep).1

/-- Settles O49: the step by its kind, a reset, a tick that is taken, or neither. -/
theorem historyRecordsOneLevelPerTick : Obligations.HistoryRecordsOneLevelPerTick := by
  intro s t x rest hin hstep
  cases hreset : x.reset with
  | true =>
    rw [step_of_reset hin hreset] at hstep
    cases hstep
    rfl
  | false =>
    cases htick : s.busy && x.tick with
    | true =>
      rw [step_of_tick hin hreset htick] at hstep
      cases hstep
      exact tick_wave _ (Bool.and_eq_true_iff.mp htick).1
    | false => exact (step_keeps_line hin hreset htick hstep).2

end Sys2Proof.Machine
end

section
/-! A command changes no bit of the frame that it does not own (20_memory.md R35, R37). -/

namespace Sys2Proof.Machine

/-- Outside the bits `own`, byte by byte, the two frames agree. -/
def AgreeOutside (own : Fin 12 → Byte) (F G : Frame) : Prop :=
  ∀ j, G j &&& ~~~(own j) = F j &&& ~~~(own j)

theorem AgreeOutside.refl (own : Fin 12 → Byte) (F : Frame) : AgreeOutside own F F :=
  fun _ => rfl

theorem AgreeOutside.trans {own : Fin 12 → Byte} {F G H : Frame} (h : AgreeOutside own F G)
    (h' : AgreeOutside own G H) : AgreeOutside own F H :=
  fun j => (h' j).trans (h j)

/-- A read-modify-write of owned bits keeps all others. -/
theorem rmw_agreeOutside (p : Params) (own : Fin 12 → Byte) (s : State) (j : Fin 12) {v : Byte}
    (hv : v &&& ~~~(own j) = 0) : AgreeOutside own (s.frame p) ((rmw p j (own j) v s).frame p) := by
  obtain ⟨-, hbyte, hothers, -⟩ := rmw_spec p j (own j) v s hv
  intro i
  by_cases hi : i = j
  · rw [hi, hbyte]
  · rw [hothers i hi]

/-- Replacing a byte that is owned whole keeps all others. -/
theorem update_agreeOutside {own : Fin 12 → Byte} (F : Frame) {j : Fin 12} (b : Byte) (hj : own j = 0xFF) :
    AgreeOutside own F (Function.update F j b) := by
  intro i
  by_cases hi : i = j
  · simp [hi, hj]
  · rw [Function.update_of_ne hi]

theorem nibbles_within_high : ∀ n : Nibble, nibbles n 0 &&& ~~~0xF0#8 = 0 := by decide

theorem nibbles_within_low : ∀ n : Nibble, nibbles 0 n &&& ~~~0x0F#8 = 0 := by decide

theorem byte_within_full (b : Byte) : b &&& ~~~0xFF#8 = 0 := by simp

theorem flag_within_own (own : Byte) (f : Bool) : (if f then own else 0) &&& ~~~own = 0 := by
  cases f <;> simp

/-- Every command keeps every bit that it does not own. -/
theorem exec_agreeOutside_ownedBits {i : Instr} {s t : State} (h : exec i s = .next t) :
    AgreeOutside (ownedBits Config.params i) (s.frame Config.params) (t.frame Config.params) := by
  obtain ⟨-, rfl⟩ | ⟨-, -, heffect⟩ := exec_cases h
  · exact AgreeOutside.refl _ _
  cases i with
  | nsum mask => cases heffect; exact AgreeOutside.refl _ _
  | crc8 init mask => cases heffect; exact AgreeOutside.refl _ _
  | setch a => cases heffect; exact rmw_agreeOutside _ _ s 4 (nibbles_within_high _)
  | setid a => cases heffect; exact rmw_agreeOutside _ _ s 5 (byte_within_full a)
  | settemp sm =>
    cases heffect
    exact ((rmw_agreeOutside _ (ownedBits _ (.settemp sm)) _ 6 (nibbles_within_high _)).trans
      (rmw_agreeOutside _ _ _ 7 (byte_within_full _))).trans (rmw_agreeOutside _ _ _ 8 (nibbles_within_low _))
  | sethum a =>
    cases heffect
    exact (rmw_agreeOutside _ (ownedBits _ (.sethum a)) _ 8 (nibbles_within_high _)).trans
      (rmw_agreeOutside _ _ _ 9 (nibbles_within_low _))
  | setbat a => cases heffect; exact rmw_agreeOutside _ _ s 6 (flag_within_own _ _)
  | final =>
    cases heffect
    rw [writeCrc_frame, writeChecksum_frame]
    exact (update_agreeOutside _ _ rfl).trans (update_agreeOutside _ _ rfl)
  | tx => cases heffect; exact AgreeOutside.refl _ _

end Sys2Proof.Machine
end

section
/-! The invariants of 10_state.md R24: they hold after a reset, and every kind of step keeps them. The frame's half
rests on one fact: no command owns any of the bits the invariants speak of. -/

namespace Sys2Proof.Machine

/-- The bits of byte `j` that the invariants I-c and I-d speak of. -/
def fixedBits (p : Params) (j : Fin 12) : Byte :=
  match j with
  | 0 => BitVec.allOnes 8
  | 1 => BitVec.allOnes 8
  | 2 => BitVec.allOnes 8
  | 3 => BitVec.allOnes 8
  | 4 => nibbles 0 (BitVec.allOnes 4)
  | 6 => nibbles 0 (~~~p.lowbatBits)
  | 9 => nibbles (BitVec.allOnes 4) 0
  | _ => 0

/-- The fixed bits lie outside what any command owns. -/
theorem fixedBits_outside_ownedBits (p : Params) (i : Instr) (j : Fin 12) :
    ~~~(ownedBits p i j) &&& fixedBits p j = fixedBits p j := by
  have unowned : ∀ b : Byte, ~~~0#8 &&& b = b := by simp only [BitVec.not_zero, BitVec.allOnes_and, implies_true]
  have highOwned : ∀ n : Nibble, ~~~0xF0#8 &&& nibbles 0 n = nibbles 0 n := by decide
  have lowOwned : ∀ n : Nibble, ~~~0x0F#8 &&& nibbles n 0 = nibbles n 0 := by decide
  have flagOwned : ∀ own : Nibble, ~~~(own.setWidth 8) &&& nibbles 0 (~~~own) = nibbles 0 (~~~own) := by decide
  match j with
  | 0 | 1 | 2 | 3 => cases i <;> exact unowned _
  | 4 =>
    cases i with
    | setch a => exact highOwned _
    | _ => exact unowned _
  | 6 =>
    cases i with
    | settemp sm => exact highOwned _
    | setbat a => exact flagOwned _
    | _ => exact unowned _
  | 9 =>
    cases i with
    | sethum a => exact lowOwned _
    | _ => exact unowned _
  | 5 | 7 | 8 | 10 | 11 => exact BitVec.and_zero

/-- A command keeps the fixed bits. -/
theorem exec_keeps_fixedBits {i : Instr} {s t : State} (h : exec i s = .next t) (j : Fin 12) :
    t.frame Config.params j &&& fixedBits Config.params j = s.frame Config.params j &&& fixedBits Config.params j := by
  rw [← fixedBits_outside_ownedBits Config.params i j, ← BitVec.and_assoc, ← BitVec.and_assoc,
    exec_agreeOutside_ownedBits h j]

section
variable {p : Params} {F G : Frame} (h : ∀ j, G j &&& fixedBits p j = F j &&& fixedBits p j)
include h

/-- What the frames' equal fixed bits say of one nibble. -/
theorem extractLsb'_and_fixedBits (j : Fin 12) (start : Nat) :
    (G j).extractLsb' start 4 &&& (fixedBits p j).extractLsb' start 4 =
      (F j).extractLsb' start 4 &&& (fixedBits p j).extractLsb' start 4 := by
  simpa only [BitVec.extractLsb'_and] using congrArg (BitVec.extractLsb' start 4) (h j)

theorem ConstantBits.of_fixedBits_eq (hF : ConstantBits p F) : ConstantBits p G where
  preamble0 := by simpa only [fixedBits, BitVec.and_allOnes, hF.preamble0] using h 0
  preamble1 := by simpa only [fixedBits, BitVec.and_allOnes, hF.preamble1] using h 1
  sync := by simpa only [fixedBits, BitVec.and_allOnes, hF.sync] using h 2
  identifier := by simpa only [fixedBits, BitVec.and_allOnes, hF.identifier] using h 3
  identifierEnd := by
    simpa only [fixedBits, nibbles_low, BitVec.and_allOnes, hF.identifierEnd] using extractLsb'_and_fixedBits h 4 0
  constantNibble := by
    simpa only [fixedBits, nibbles_high, BitVec.and_allOnes, hF.constantNibble] using extractLsb'_and_fixedBits h 9 4

theorem flagNibble_of_fixedBits_eq (hF : (F 6).extractLsb' 0 4 &&& ~~~p.lowbatBits = 0) :
    (G 6).extractLsb' 0 4 &&& ~~~p.lowbatBits = 0 := by
  simpa only [fixedBits, nibbles_low, hF] using extractLsb'_and_fixedBits h 6 0

end

/-! ## One lemma per kind of step -/

/-- A reset establishes the invariants in every state. -/
theorem inv_deviceReset (p : Params) (s : State) : Inv p (deviceReset p s) where
  idle _ := ⟨rfl, rfl⟩
  borrowed := nofun
  constants := by
    have shifted : ∀ n : Nibble, (n.setWidth 8 <<< 4 : Byte).extractLsb' 4 4 = n := by decide
    exact ⟨rfl, rfl, rfl, rfl, rfl, shifted p.b9Hi⟩
  flags := BitVec.zero_and

/-- The invariants do not speak of the inputs still to come. -/
theorem Inv.withInputs {p : Params} {s : State} (h : Inv p s) (xs : List Input) : Inv p { s with inputs := xs } :=
  ⟨h.idle, h.borrowed, h.constants, h.flags⟩

theorem Inv.tick {p : Params} {s : State} (h : Inv p s) : Inv p (tick p s) := by
  obtain ⟨-, heq⟩ | ⟨k, hbusy, -, heq⟩ | ⟨-, -, heq⟩ := tick_cases p s
  · rwa [heq]
  · rw [heq]
    exact ⟨by simp [hbusy], h.borrowed, h.constants, h.flags⟩
  · rw [heq]
    exact ⟨fun _ => ⟨rfl, rfl⟩, nofun, h.constants, h.flags⟩

theorem Inv.hostTimerStep {p : Params} {s : State} (h : Inv p s) (c : TimerCfg) : Inv p (hostTimerStep c s) := by
  obtain ⟨-, heq⟩ | ⟨hidle, heq⟩ := hostTimerStep_cases c s
  · rwa [heq]
  · rw [heq]
    exact ⟨h.idle, by simp [hidle], h.constants, h.flags⟩

theorem Inv.exec {i : Instr} {s t : State} (h : Inv Config.params s) (hexec : exec i s = .next t) :
    Inv Config.params t := by
  have hconstants := h.constants.of_fixedBits_eq (exec_keeps_fixedBits hexec)
  have hflags := flagNibble_of_fixedBits_eq (exec_keeps_fixedBits hexec) h.flags
  obtain ⟨-, rfl⟩ | hkeeps := exec_transmitter hexec
  · exact ⟨nofun, fun _ => rfl, hconstants, hflags⟩
  · refine ⟨?_, ?_, hconstants, hflags⟩
    · rw [hkeeps.busy_eq, hkeeps.pin_eq, hkeeps.txpos_eq]
      exact h.idle
    · rw [hkeeps.busy_eq, hkeeps.tcfg_eq]
      exact h.borrowed

/-- Settles O54: the reset state is what a reset step answers. -/
theorem invariantsHoldAtReset : Obligations.InvariantsHoldAtReset :=
  ⟨inv_deviceReset Config.params State.reset, wf_resetAt Config.params⟩

/-- Settles O55: the step by its kind, each of which keeps or establishes the invariants. -/
theorem everyStepKeepsTheInvariants : Obligations.EveryStepKeepsTheInvariants := by
  intro s t hinv hstep
  obtain ⟨-, rfl⟩ | ⟨x, rest, -, hkind⟩ := step_cases hstep
  · exact hinv
  have hrest := hinv.withInputs rest
  obtain ⟨-, rfl⟩ | ⟨-, -, -, rfl⟩ | ⟨-, -, hhost⟩ := hkind
  · exact inv_deviceReset ..
  · exact hrest.tick
  · obtain ⟨-, rfl⟩ | ⟨c, -, rfl⟩ | ⟨_, i, -, -, hexec⟩ | ⟨_, _, -, -, -, rfl⟩ := hhost
    · exact hrest
    · exact hrest.hostTimerStep c
    · exact hrest.exec hexec
    · exact hrest

end Sys2Proof.Machine
end

section
/-! The masks of the two engine commands: defined exactly without bits beyond the frame's 24 nibbles
(20_memory.md R33). -/

namespace Sys2Proof.Machine

theorem maskDefined_iff {mask : BitVec 64} : maskDefined mask = true ↔ ∀ i, 24 ≤ i → mask.getLsbD i = false := by
  rw [maskDefined, beq_iff_eq]
  constructor
  · intro h i hi
    have hbit := congrArg (BitVec.getLsbD · (i - 24)) h
    simpa [Nat.add_sub_cancel' hi] using hbit
  · intro h
    ext i hi
    simpa using h (24 + i) (Nat.le_add_right 24 i)

theorem exec_nsum_refused {s : State} {mask : BitVec 64} (h : s.busy = false) (hm : ¬ maskDefined mask = true) :
    exec (.nsum mask) s = .refused (.maskBeyondFrame mask) :=
  (accept_idle h).trans (if_neg hm)

theorem exec_crc8_refused {s : State} {init : Byte} {mask : BitVec 64} (h : s.busy = false)
    (hm : ¬ maskDefined mask = true) : exec (.crc8 init mask) s = .refused (.maskBeyondFrame mask) :=
  (accept_idle h).trans (if_neg hm)

/-- Settles O21: a bit beyond the frame makes the mask undefined, and the parameters' masks carry a proof that they are
defined. -/
theorem masksBeyondTheFrameAreRefused : Obligations.MasksBeyondTheFrameAreRefused := by
  constructor
  · intro s init mask i hidle hi hbit
    have hundefined : ¬ maskDefined mask = true := fun hdefined =>
      absurd (maskDefined_iff.mp hdefined i hi) (by simp [hbit])
    exact ⟨exec_nsum_refused hidle hundefined, exec_crc8_refused hidle hundefined⟩
  · intro p i hi
    exact ⟨maskDefined_iff.mp p.sumMask_defined i hi, maskDefined_iff.mp p.crcMask_defined i hi⟩

end Sys2Proof.Machine
end

section
/-! Who changes the frame buffer: a setter or `FINAL` that an idle block accepts, and the reset (20_memory.md R42,
R44). Each write keeps the canonical form. -/

namespace Sys2Proof.Machine

/-- Settles O28: every command's effect is made of writes to its own bits. -/
theorem commandsKeepBitsTheyDoNotOwn : Obligations.CommandsKeepBitsTheyDoNotOwn :=
  fun _ _ _ j hexec => exec_agreeOutside_ownedBits hexec j

@[simp] theorem tick_mem (p : Params) (s : State) : (tick p s).mem = s.mem := by
  obtain ⟨-, h⟩ | ⟨k, -, -, h⟩ | ⟨-, -, h⟩ := tick_cases p s
  · rw [h]
  · rw [h, emitHalfSymbol_mem]
  · rw [h, endTransmission_mem]

@[simp] theorem hostTimerStep_mem (c : TimerCfg) (s : State) : (hostTimerStep c s).mem = s.mem := by
  obtain ⟨-, h⟩ | ⟨-, h⟩ := hostTimerStep_cases c s <;> rw [h]

/-- A command that answers a next state leaves the frame buffer alone, or is an encoder command accepted by an idle
block. -/
theorem exec_mem_cases {i : Instr} {s t : State} (h : exec i s = .next t) :
    t.mem = s.mem ∨ (s.busy = false ∧ ((setterField i).isSome = true ∨ i = .final)) := by
  obtain ⟨-, rfl⟩ | ⟨hidle, -, heffect⟩ := exec_cases h
  · exact .inl rfl
  cases i with
  | nsum mask => cases heffect; exact .inl rfl
  | crc8 init mask => cases heffect; exact .inl rfl
  | tx => cases heffect; exact .inl rfl
  | final => exact .inr ⟨hidle, .inr rfl⟩
  | setch | setid | settemp | sethum | setbat => exact .inr ⟨hidle, .inl rfl⟩

/-- A step leaves the frame buffer alone, is a reset, or takes a command. -/
theorem step_mem_cases {s t : State} (h : step s = .next t) :
    t.mem = s.mem ∨
    ∃ x rest, s.inputs = x :: rest ∧
      ((x.reset = true ∧ t.mem = []) ∨
       ∃ bytes i, x.host = some (.command bytes) ∧ decode bytes = .ok i ∧
         exec i { s with inputs := rest } = .next t) := by
  obtain ⟨-, rfl⟩ | ⟨x, rest, hin, hkind⟩ := step_cases h
  · exact .inl rfl
  obtain ⟨hreset, rfl⟩ | ⟨-, -, -, rfl⟩ | ⟨-, -, hhost⟩ := hkind
  · exact .inr ⟨x, rest, hin, .inl ⟨hreset, rfl⟩⟩
  · exact .inl (tick_mem ..)
  · obtain ⟨-, rfl⟩ | ⟨c, -, rfl⟩ | hcommand | ⟨_, _, -, -, -, rfl⟩ := hhost
    · exact .inl rfl
    · exact .inl (hostTimerStep_mem ..)
    · exact .inr ⟨x, rest, hin, .inr hcommand⟩
    · exact .inl rfl

/-- The bytes are read from the frame buffer alone. -/
theorem bytes_eq_of_mem_eq {s t : State} (h : t.mem = s.mem) : t.bytes = s.bytes :=
  congrArg (Memory.read Config.params) h

/-- Settles O34: a step that changes the frame is a reset, or takes a command, which then is an encoder command on an
idle block. -/
theorem onlyEncoderCommandsAndResetChangeTheFrame : Obligations.OnlyEncoderCommandsAndResetChangeTheFrame := by
  intro s t hstep hchanged
  obtain hmem | ⟨x, rest, hin, ⟨hreset, -⟩ | ⟨bytes, i, hcommand, hdecode, hexec⟩⟩ := step_mem_cases hstep
  · exact absurd (bytes_eq_of_mem_eq hmem) hchanged
  · exact ⟨x, rest, hin, .inl hreset⟩
  · obtain hmem | ⟨hidle, hencoder⟩ := exec_mem_cases hexec
    · exact absurd (bytes_eq_of_mem_eq hmem) hchanged
    · exact ⟨x, rest, hin, .inr ⟨hidle, bytes, i, hcommand, hdecode, hencoder⟩⟩

/-- Every command keeps the canonical form. -/
theorem wf_exec {i : Instr} {s t : State} (h : exec i s = .next t) (hwf : Memory.wf Config.params s.mem = true) :
    Memory.wf Config.params t.mem = true := by
  obtain ⟨-, rfl⟩ | ⟨-, -, heffect⟩ := exec_cases h
  · exact hwf
  cases i with
  | nsum | crc8 | tx => cases heffect; exact hwf
  | setch | setid | setbat => cases heffect; exact wf_rmw _ _ _ _ s hwf
  | settemp sm => cases heffect; exact wf_writeTemperature _ sm s hwf
  | sethum a => cases heffect; exact wf_writeHumidity _ a s hwf
  | final => cases heffect; exact wf_writeCrc _ _ (wf_writeChecksum _ s hwf)

/-- Settles O56: nothing is listed after a reset, and a command is made of writes that keep the form. -/
theorem everyStepKeepsMemoryCanonical : Obligations.EveryStepKeepsMemoryCanonical := by
  intro s t hwf hstep
  obtain hmem | ⟨x, rest, -, ⟨-, hmem⟩ | ⟨_, i, -, -, hexec⟩⟩ := step_mem_cases hstep
  · rwa [hmem]
  · rw [hmem]
    exact wf_resetAt Config.params
  · exact wf_exec hexec hwf

end Sys2Proof.Machine
end

section
/-! In canonical form the listed bytes are exactly those off their reset contents, so the bytes determine the list. -/

namespace Sys2Proof.Machine

/-- A byte below every listed address reads as its reset contents. -/
theorem Memory.read_below (p : Params) {m : Memory} {j : Fin 12} (h : ∀ cell ∈ m, j.val < cell.1) :
    Memory.read p m j = unlistedByte p j.val := by
  induction m with
  | nil => rfl
  | cons cell m ih =>
    obtain ⟨hcell, hrest⟩ := List.forall_mem_cons.mp h
    rw [Memory.read, if_neg hcell.ne', ih hrest]

section
variable {p : Params} {a : Nat} {b : Byte} {m m' : Memory}

/-- A canonical memory with the same bytes lists an address no greater than the first one listed here, whose byte is
off its reset contents. -/
theorem Memory.exists_le_head (hwf : Memory.wf p ((a, b) :: m) = true)
    (hread : ∀ j, Memory.read p ((a, b) :: m) j = Memory.read p m' j) : ∃ cell ∈ m', cell.1 ≤ a := by
  obtain ⟨ha, hb, -, -⟩ := (Memory.wf_cons p a b m).mp hwf
  by_contra hbelow
  push Not at hbelow
  have hhead : b = Memory.read p m' ⟨a, ha⟩ := by simpa [Memory.read] using hread ⟨a, ha⟩
  exact hb (hhead.trans (Memory.read_below p hbelow))

/-- Of two canonical memories with the same bytes, neither starts after the other. -/
theorem Memory.head_le {a' : Nat} {b' : Byte} (hwf : Memory.wf p ((a, b) :: m) = true)
    (hwf' : Memory.wf p ((a', b') :: m') = true)
    (hread : ∀ j, Memory.read p ((a, b) :: m) j = Memory.read p ((a', b') :: m') j) : a' ≤ a := by
  obtain ⟨-, -, hrising, -⟩ := (Memory.wf_cons p a' b' m').mp hwf'
  obtain ⟨cell, hcell, hle⟩ := Memory.exists_le_head hwf hread
  obtain rfl | hcell := List.mem_cons.mp hcell
  · exact hle
  · exact (hrising cell hcell).le.trans hle

/-- Canonical memories with the same first address and the same bytes agree on the first byte and on the bytes of the
rest. -/
theorem Memory.head_byte_eq_and_read_tail_eq {b' : Byte} (hwf : Memory.wf p ((a, b) :: m) = true)
    (hwf' : Memory.wf p ((a, b') :: m') = true)
    (hread : ∀ j, Memory.read p ((a, b) :: m) j = Memory.read p ((a, b') :: m') j) :
    b = b' ∧ ∀ j, Memory.read p m j = Memory.read p m' j := by
  obtain ⟨ha, -, hrising, -⟩ := (Memory.wf_cons p a b m).mp hwf
  obtain ⟨-, -, hrising', -⟩ := (Memory.wf_cons p a b' m').mp hwf'
  constructor
  · simpa [Memory.read] using hread ⟨a, ha⟩
  · intro j
    by_cases hj : a = j.val
    · subst hj
      rw [Memory.read_below p hrising, Memory.read_below p hrising']
    · simpa [Memory.read, hj] using hread j

end

/-- Settles O57, by induction on the list: equal bytes give equal first entries, then equal bytes of the rest. -/
theorem canonicalMemoryIsDeterminedByItsBytes : Obligations.CanonicalMemoryIsDeterminedByItsBytes := by
  intro p m
  induction m with
  | nil =>
    rintro (_ | ⟨⟨a', b'⟩, m'⟩) - hwf' hread
    · rfl
    · simpa using Memory.exists_le_head hwf' fun j => (hread j).symm
  | cons cell m ih =>
    obtain ⟨a, b⟩ := cell
    rintro (_ | ⟨⟨a', b'⟩, m'⟩) hwf hwf' hread
    · simpa using Memory.exists_le_head hwf hread
    · obtain rfl : a = a' :=
        le_antisymm (Memory.head_le hwf' hwf fun j => (hread j).symm) (Memory.head_le hwf hwf' hread)
      obtain ⟨rfl, htail⟩ := Memory.head_byte_eq_and_read_tail_eq hwf hwf' hread
      obtain ⟨-, -, -, hrest⟩ := (Memory.wf_cons p a b m).mp hwf
      obtain ⟨-, -, -, hrest'⟩ := (Memory.wf_cons p a b m').mp hwf'
      rw [ih m' hrest hrest' htail]

end Sys2Proof.Machine
end

section
/-! A busy block: it takes ticks and resets, and whatever the host offers has no effect (30_encoding.md R63,
42_transmitter.md R112). -/

namespace Sys2Proof.Machine

theorem exec_busy (i : Instr) {s : State} (h : s.busy = true) : exec i s = .next s := by
  cases i <;> exact accept_busy h

theorem hostAct_busy (a : HostAct) {s : State} (h : s.busy = true) : hostAct a s = .next s := by
  cases a with
  | setTimer c => simp only [hostAct, hostTimerStep_busy c h]
  | command bytes =>
    rw [hostAct, issue]
    split
    · exact exec_busy _ h
    · exact accept_busy h

/-- With no reset and no tick, a busy block only consumes what the host offers. -/
theorem step_of_busy_noTick {s : State} {x : Input} {rest : List Input} (hbusy : s.busy = true)
    (hin : s.inputs = x :: rest) (hreset : x.reset = false) (htick : x.tick = false) :
    step s = .next { s with inputs := rest } := by
  have hnone : (s.busy && x.tick) = false := by simp [htick]
  cases hhost : x.host with
  | none => exact step_of_noHostAct hin hreset hnone hhost
  | some a => exact (step_of_hostAct hin hreset hnone hhost).trans (hostAct_busy a hbusy)

/-- Settles O45: the step consumes an offer, emits one half-symbol, or ends the transmission. -/
theorem busyStepsKeepFrameAndSnapshot : Obligations.BusyStepsKeepFrameAndSnapshot := by
  intro s x rest hbusy hin hreset
  cases htick : x.tick with
  | false => exact ⟨_, step_of_busy_noTick hbusy hin hreset htick, rfl, fun _ => rfl, by simp [hbusy]⟩
  | true =>
    refine ⟨_, step_of_tick hin hreset (by simp [hbusy, htick]), ?_⟩
    obtain ⟨hidle, -⟩ | ⟨k, -, -, h⟩ | ⟨-, -, h⟩ := tick_cases Config.params { s with inputs := rest }
    · simp [hbusy] at hidle
    · rw [h]
      exact ⟨rfl, fun _ => rfl, by simp [hbusy]⟩
    · rw [h]
      exact ⟨rfl, nofun, fun _ => ⟨rfl, rfl, rfl⟩⟩

end Sys2Proof.Machine
end

section
/-! The frame before `SETCH`: its channel byte keeps its reset contents through every other command
(20_memory.md R36, 70_reset_and_hazards.md R157). -/

namespace Sys2Proof.Machine

/-- A command whose operands it defines completes, whether the block takes it or not (60_exceptions.md R135). -/
theorem exec_completes {i : Instr} (hwf : i.wellFormed = true) (s : State) : ∃ t, exec i s = .next t := by
  cases h : s.busy with
  | true => exact ⟨s, exec_busy i h⟩
  | false =>
    cases i with
    | nsum mask => exact ⟨_, exec_nsum_idle h hwf⟩
    | crc8 init mask => exact ⟨_, exec_crc8_idle h hwf⟩
    | setch a => exact ⟨_, exec_setch_idle h hwf⟩
    | setid a => exact ⟨_, exec_setid_idle h⟩
    | settemp sm => exact ⟨_, exec_settemp_idle h⟩
    | sethum a => exact ⟨_, exec_sethum_idle h⟩
    | setbat a => exact ⟨_, exec_setbat_idle h hwf⟩
    | final => exact ⟨_, exec_final_idle h⟩
    | tx => exact ⟨_, exec_tx_idle h⟩

/-- Commands that all complete and keep `P` run to their end and keep `P`. -/
theorem issueAll_keeps {P : State → Prop} {is : List Instr}
    (hkeeps : ∀ i ∈ is, ∀ s, P s → ∃ t, exec i s = .next t ∧ P t) {s : State} (hs : P s) :
    ∃ t, issueAll is s = .next t ∧ P t := by
  induction is generalizing s with
  | nil => exact ⟨s, rfl, hs⟩
  | cons i is ih =>
    obtain ⟨hhead, hrest⟩ := List.forall_mem_cons.mp hkeeps
    obtain ⟨t, hexec, ht⟩ := hhead s hs
    rw [issueAll_cons hexec]
    exact ih hrest ht

/-- Byte 4 belongs to `SETCH` alone. -/
theorem ownedBits_four (p : Params) {i : Instr} (h : ∀ a, i ≠ .setch a) : ownedBits p i 4 = 0#8 := by
  cases i with
  | setch a => exact absurd rfl (h a)
  | _ => rfl

theorem exec_keeps_channelByte {i : Instr} {s t : State} (hexec : exec i s = .next t) (h : ∀ a, i ≠ .setch a) :
    t.bytes 4 = s.bytes 4 := by
  have hkept := commandsKeepBitsTheyDoNotOwn i s t 4 hexec
  simpa only [ownedBits_four _ h, BitVec.not_zero, BitVec.and_allOnes] using hkept

/-- A channel byte of 0 is no channel's. -/
theorem decChan_of_channelByte_zero {F : Frame} (h : F 4 = 0) : decChan F = none := by
  rw [decChan, h]
  decide

theorem reset_bytes : State.reset.bytes =
    Frame.ofBytes 0xFF 0xFF 0x1A 0x2D 0 0 0 0 0 (Config.params.b9Hi.setWidth 8 <<< 4) 0 0 := by
  funext j
  fin_cases j <;> rfl

/-- Settles O53: no command but `SETCH` writes byte 4, which is 0 at reset. -/
theorem resetStateHasTheStatedValues : Obligations.ResetStateHasTheStatedValues := by
  refine ⟨reset_bytes, rfl, rfl, rfl, rfl, rfl, fun is his => ?_⟩
  have hkeeps : ∀ i ∈ is ++ [.final], ∀ s : State, s.bytes 4 = 0 → ∃ t, exec i s = .next t ∧ t.bytes 4 = 0 := by
    intro i hi s hs
    obtain ⟨hwf, hother⟩ : i.wellFormed = true ∧ ∀ a, i ≠ .setch a := by
      obtain hi | hi := List.mem_append.mp hi
      · exact his i hi
      · cases List.mem_singleton.mp hi
        exact ⟨rfl, nofun⟩
    obtain ⟨t, hexec⟩ := exec_completes hwf s
    exact ⟨t, hexec, (exec_keeps_channelByte hexec hother).trans hs⟩
  obtain ⟨t, hissue, hzero⟩ := issueAll_keeps hkeeps (congrFun reset_bytes 4)
  exact ⟨t, hissue, by rw [hzero]; rfl, decChan_of_channelByte_zero hzero⟩

end Sys2Proof.Machine
end

section
/-! What the command port refuses, and what a busy block does with an offer (30_encoding.md R53, R63,
60_exceptions.md R135). -/

namespace Sys2Proof.Machine

/-- Bytes that spell no command are refused when the port is ready. -/
theorem issue_undecodable {bytes : List Byte} {e : DecodeError} (s : State) (h : decode bytes = .error e) :
    issue bytes s = accept s (.refused (.undecodable e)) := by
  simp only [issue, h]

/-- An idle block completes what the port is given only where that is a command. -/
theorem issue_next_idle {bytes : List Byte} {s t : State} (h : issue bytes s = .next t) (hidle : s.busy = false) :
    ∃ i, decode bytes = .ok i ∧ exec i s = .next t := by
  cases hdecode : decode bytes with
  | ok i => exact ⟨i, rfl, (issue_decoded s hdecode).symm.trans h⟩
  | error e =>
    rw [issue_undecodable s hdecode, accept_idle hidle] at h
    cases h

/-- A command is refused only by an idle block, and only for operands it does not define. -/
theorem exec_refused {i : Instr} {s : State} {r : Refusal} (h : exec i s = .refused r) :
    s.busy = false ∧ i.wellFormed = false := by
  constructor
  · by_contra hbusy
    rw [exec_busy i (by simpa using hbusy)] at h
    cases h
  · by_contra hwf
    obtain ⟨t, hnext⟩ := exec_completes (by simpa using hwf) s
    rw [hnext] at h
    cases h

/-- Bytes are refused only by an idle block: they spell no command, or one with operands it does not define. -/
theorem issue_refused {bytes : List Byte} {s : State} {r : Refusal} (h : issue bytes s = .refused r) :
    s.busy = false ∧
      ((∃ e, decode bytes = .error e ∧ r = .undecodable e) ∨ ∃ i, decode bytes = .ok i ∧ i.wellFormed = false) := by
  cases hdecode : decode bytes with
  | ok i =>
    rw [issue_decoded s hdecode] at h
    obtain ⟨hidle, hwf⟩ := exec_refused h
    exact ⟨hidle, .inr ⟨i, rfl, hwf⟩⟩
  | error e =>
    rw [issue_undecodable s hdecode] at h
    obtain ⟨hidle, hr⟩ := accept_refused h
    cases hr
    exact ⟨hidle, .inl ⟨e, rfl, rfl⟩⟩

/-- Settles O11: a refused step is a refused issue of the bytes at the command port. -/
theorem onlyNonCommandsAreRefused : Obligations.OnlyNonCommandsAreRefused := by
  intro s r hstep
  obtain ⟨x, rest, bytes, hin, hreset, hcommand, hissue⟩ := step_refused hstep
  obtain ⟨hidle, hwhy⟩ := issue_refused hissue
  exact ⟨hidle, x, rest, bytes, hin, hreset, hcommand, hwhy⟩

/-- Settles O9: no command has an effect on a busy block, and without a tick the step only consumes the offer. -/
theorem busyBlockTakesNoCommand : Obligations.BusyBlockTakesNoCommand :=
  ⟨fun i _ hbusy => exec_busy i hbusy,
    fun _ _ _ _ hbusy hin hreset htick _ => step_of_busy_noTick hbusy hin hreset htick⟩

end Sys2Proof.Machine
end

section
/-! The opcode table read both ways (30_encoding.md R50 to R53): an opcode byte of the table fixes how many operand
bytes follow, the bytes of a command are a row's opcode and operands, and a row's operands are the bytes of the command
it builds. -/

namespace Sys2Proof

/-! ### `decode`, by its opcode's row and the number of operand bytes -/

theorem decode_of_reserved {opcode : Byte} (operands : List Byte) (hrow : opcodeRow opcode = none) :
    decode (opcode :: operands) = .error (.reservedOpcode opcode) := by
  simp only [decode, hrow]

section
variable {opcode : Byte} {operands : List Byte} {row : OpcodeRow}

theorem decode_of_length_eq (hrow : opcodeRow opcode = some row) (hlen : operands.length = row.operandBytes) :
    decode (opcode :: operands) = .ok (row.build operands) := by
  simp only [decode, hrow, hlen, lt_irrefl, if_false]

theorem decode_of_length_lt (hrow : opcodeRow opcode = some row) (hlen : operands.length < row.operandBytes) :
    decode (opcode :: operands) = .error (.truncated opcode) := by
  simp only [decode, hrow, hlen, if_true]

theorem decode_of_length_gt (hrow : opcodeRow opcode = some row) (hlen : row.operandBytes < operands.length) :
    decode (opcode :: operands) = .error (.overlong opcode) := by
  simp only [decode, hrow, hlen, hlen.not_gt, if_true, if_false]

end

/-! ### Little-endian operands -/

/-- A single operand byte is the number it spells. -/
theorem ofNat_leNat_singleton (b : Byte) : BitVec.ofNat 8 (leNat [b]) = b := by
  simp [leNat]

/-- A single operand byte is the byte of the number it spells. -/
theorem singleton_ofNat_leNat {bs : List Byte} (h : bs.length = 1) : [BitVec.ofNat 8 (leNat bs)] = bs := by
  obtain ⟨b, rfl⟩ := List.length_eq_one_iff.mp h
  rw [ofNat_leNat_singleton]

/-- As many bytes as a word has spell the word back. -/
theorem ofNat_leNat_leBytes (n : Nat) (v : BitVec (8 * n)) :
    BitVec.ofNat (8 * n) (leNat (leBytes n v.toNat)) = v := by
  have hv : v.toNat < 256 ^ n := by simpa only [Nat.pow_mul] using v.isLt
  rw [leNat_leBytes, Nat.mod_eq_of_lt hv, BitVec.ofNat_toNat, BitVec.setWidth_eq]

theorem leNat_lt_two_pow (bs : List Byte) : leNat bs < 2 ^ (8 * bs.length) := by
  simpa only [Nat.pow_mul] using leNat_lt bs

/-- The bytes of the word that some bytes spell are those bytes. -/
theorem leBytes_ofNat_leNat {n : Nat} {bs : List Byte} (h : bs.length = n) :
    leBytes n (BitVec.ofNat (8 * n) (leNat bs)).toNat = bs := by
  subst h
  rw [BitVec.toNat_ofNat, Nat.mod_eq_of_lt (leNat_lt_two_pow bs), leBytes_leNat]

/-! ### Commands and rows -/

/-- Every command is spelt by a row of the table: its bytes are the row's opcode, and operands from which the row builds
it. -/
theorem encode_row (i : Instr) : ∃ opcode operands row, encode i = opcode :: operands ∧
    opcodeRow opcode = some row ∧ operands.length = row.operandBytes ∧ row.build operands = i := by
  cases i with
  | nsum mask => exact ⟨_, _, _, rfl, rfl, rfl, congrArg Instr.nsum (ofNat_leNat_leBytes 8 mask)⟩
  | crc8 init mask =>
    exact ⟨_, _, _, rfl, rfl, rfl, congrArg₂ Instr.crc8 (ofNat_leNat_singleton init) (ofNat_leNat_leBytes 8 mask)⟩
  | setch a => exact ⟨_, _, _, rfl, rfl, rfl, congrArg Instr.setch (ofNat_leNat_singleton a)⟩
  | setid a => exact ⟨_, _, _, rfl, rfl, rfl, congrArg Instr.setid (ofNat_leNat_singleton a)⟩
  | settemp sm => exact ⟨_, _, _, rfl, rfl, rfl, congrArg Instr.settemp (ofNat_leNat_leBytes 2 sm)⟩
  | sethum a => exact ⟨_, _, _, rfl, rfl, rfl, congrArg Instr.sethum (ofNat_leNat_singleton a)⟩
  | setbat a => exact ⟨_, _, _, rfl, rfl, rfl, congrArg Instr.setbat (ofNat_leNat_singleton a)⟩
  | final => exact ⟨_, _, _, rfl, rfl, rfl, rfl⟩
  | tx => exact ⟨_, _, _, rfl, rfl, rfl, rfl⟩

/-- The bytes of the command a row builds are the row's opcode and the operands it was built from. -/
theorem encode_build {row : OpcodeRow} (hmem : row ∈ opcodeRows) {operands : List Byte}
    (hlen : operands.length = row.operandBytes) : encode (row.build operands) = row.opcode :: operands := by
  simp only [opcodeRows, List.mem_cons, List.not_mem_nil, or_false] at hmem
  obtain rfl | rfl | rfl | rfl | rfl | rfl | rfl | rfl | rfl := hmem
  · exact congrArg (0x01 :: ·) (leBytes_ofNat_leNat (n := 8) hlen)
  · obtain ⟨init, mask, rfl⟩ := List.exists_cons_of_length_eq_add_one hlen
    exact congrArg (0x02 :: ·)
      (congrArg₂ List.cons (ofNat_leNat_singleton init) (leBytes_ofNat_leNat (n := 8) (Nat.succ_inj.mp hlen)))
  · exact congrArg (0x10 :: ·) (singleton_ofNat_leNat hlen)
  · exact congrArg (0x11 :: ·) (singleton_ofNat_leNat hlen)
  · exact congrArg (0x12 :: ·) (leBytes_ofNat_leNat (n := 2) hlen)
  · exact congrArg (0x13 :: ·) (singleton_ofNat_leNat hlen)
  · exact congrArg (0x14 :: ·) (singleton_ofNat_leNat hlen)
  · exact congrArg (0x15 :: ·) (List.length_eq_zero_iff.mp hlen).symm
  · exact congrArg (0x20 :: ·) (List.length_eq_zero_iff.mp hlen).symm

/-- An opcode has no row exactly when it is none of the nine of the table. -/
theorem opcodeRow_eq_none {opcode : Byte} :
    opcodeRow opcode = none ↔ opcode ∉ ([0x01, 0x02, 0x10, 0x11, 0x12, 0x13, 0x14, 0x15, 0x20] : List Byte) := by
  have hopcodes : opcodeRows.map OpcodeRow.opcode = [0x01, 0x02, 0x10, 0x11, 0x12, 0x13, 0x14, 0x15, 0x20] := rfl
  rw [← hopcodes]
  simp [opcodeRow]

/-- The word of a whole command is presented as the command's bytes. -/
theorem tableWordBytes_leNat {opcode : Byte} {operands : List Byte} {row : OpcodeRow}
    (hrow : opcodeRow opcode = some row) (hlen : operands.length = row.operandBytes) :
    tableWordBytes (8 * (opcode :: operands).length) (leNat (opcode :: operands)) = opcode :: operands := by
  have hword : leNat (opcode :: operands) % 2 ^ (8 * (opcode :: operands).length) = leNat (opcode :: operands) :=
    Nat.mod_eq_of_lt (leNat_lt_two_pow (opcode :: operands))
  have hopcode : BitVec.ofNat 8 (leNat (opcode :: operands)) = opcode :=
    (List.cons.inj (leBytes_leNat (opcode :: operands))).1
  have hlength : (commandLength opcode).getD 1 = (opcode :: operands).length := by
    simp [commandLength, hrow, hlen]
  simp only [tableWordBytes, hword, hopcode, hlength, leBytes_leNat]

/-! ### The statements -/

/-- Settles O1: a command's bytes are an opcode of the table and as many operand bytes as its row asks for. -/
theorem decodeInvertsEncode : Obligations.DecodeInvertsEncode := by
  intro i
  obtain ⟨opcode, operands, row, hencode, hrow, hlen, hbuild⟩ := encode_row i
  rw [hencode, decode_of_length_eq hrow hlen, hbuild]

/-- Settles O2: bytes that decode are a row's opcode and operands, which the command it builds keeps. -/
theorem encodeInvertsDecode : Obligations.EncodeInvertsDecode := by
  intro bytes i hdecode
  obtain ⟨opcode, operands, row, rfl, hrow, hlen, rfl⟩ := decode_ok hdecode
  obtain ⟨hmem, rfl⟩ := opcodeRow_mem hrow
  exact encode_build hmem hlen

/-- Settles O3: the word of a command's bytes is presented as those bytes, which decode. -/
theorem tableWordsDecode : Obligations.TableWordsDecode := by
  intro i
  obtain ⟨opcode, operands, row, hencode, hrow, hlen, -⟩ := encode_row i
  have hpresented : tableWordBytes (8 * (encode i).length) (leNat (encode i)) = encode i := by
    rw [hencode, tableWordBytes_leNat hrow hlen]
  rw [Machine.decodeTableWord_eq_some, hpresented, decodeInvertsEncode]

/-- Settles O4: a row compares the number of operand bytes presented with its own. -/
theorem wrongLengthsAreRejected : Obligations.WrongLengthsAreRejected := by
  intro i opcode operands hencode
  obtain ⟨_, _, row, hencode', hrow, hlen, -⟩ := encode_row i
  obtain ⟨rfl, rfl⟩ := List.cons.inj (hencode.symm.trans hencode')
  constructor
  · intro n hn
    exact decode_of_length_lt hrow (by simpa [← hlen] using hn)
  · intro more hmore
    exact decode_of_length_gt hrow (by simpa [← hlen] using List.length_pos_iff.mpr hmore)

/-- Settles O5: no row has the opcode, and what does not decode an idle block refuses. -/
theorem reservedOpcodesAreRejected : Obligations.ReservedOpcodesAreRejected := by
  intro opcode operands hreserved
  have hdecode := decode_of_reserved operands (opcodeRow_eq_none.mpr hreserved)
  exact ⟨hdecode, fun s hidle => (Machine.issue_undecodable s hdecode).trans (Machine.accept_idle hidle)⟩

/-- Settles O6: each word is what `encode` gives for its command. -/
theorem specWordsDecode : Obligations.SpecWordsDecode :=
  ⟨decodeInvertsEncode (.nsum 0xFFFF0), decodeInvertsEncode (.crc8 0x09 0x3FFFF0), decodeInvertsEncode (.setch 3),
    decodeInvertsEncode (.setid 0xBB), decodeInvertsEncode (.settemp 227), decodeInvertsEncode (.settemp 0x8035),
    decodeInvertsEncode (.sethum 30), decodeInvertsEncode (.setbat 1), decodeInvertsEncode .final,
    decodeInvertsEncode .tx⟩

end Sys2Proof
end

section
/-! The block's writes at the timer's port (30_encoding.md R64): at the acceptance of `TX` and at the last tick, and the
timer's configuration after a step is what they leave (10_state.md R10). -/

namespace Sys2Proof.Machine

section
variable (p : Params) {s : State} {x : Input}

theorem timerWrite_of_tick (hreset : x.reset = false) (htick : (s.busy && x.tick) = true) :
    timerWrite p x s = if s.txpos.val = 192 then some s.tsave else none := by
  obtain ⟨hbusy, htick⟩ := Bool.and_eq_true_iff.mp htick
  simp [timerWrite, hreset, hbusy, htick]

theorem timerWrite_of_busy_noTick (hbusy : s.busy = true) (htick : x.tick = false) : timerWrite p x s = none := by
  simp [timerWrite, hbusy, htick]

theorem timerWrite_of_idle_noHostAct (hidle : s.busy = false) (hhost : x.host = none) : timerWrite p x s = none := by
  simp [timerWrite, hidle, hhost]

theorem timerWrite_of_idle_command {bytes : List Byte} {i : Instr} (hreset : x.reset = false) (hidle : s.busy = false)
    (hhost : x.host = some (.command bytes)) (hdecode : decode bytes = .ok i) :
    timerWrite p x s = if i = .tx then some p.periodicCfg else none := by
  simp only [timerWrite, hreset, hidle, hhost, hdecode, Bool.false_eq_true, if_false]
  cases i <;> rfl

end

/-- A tick taken by a busy block gives the timer back at position 192 and leaves it alone before. -/
theorem tick_tcfg (p : Params) {s : State} (hbusy : s.busy = true) :
    (tick p s).tcfg = if s.txpos.val = 192 then s.tsave else s.tcfg := by
  obtain ⟨hidle, -⟩ | ⟨k, -, hk, h⟩ | ⟨-, hlast, h⟩ := tick_cases p s
  · simp [hbusy] at hidle
  · rw [h, emitHalfSymbol_tcfg, if_neg (by omega)]
  · rw [h, endTransmission_tcfg, if_pos hlast]

/-- Of the commands an idle block accepts only `TX` sets the timer (42_transmitter.md R108). -/
theorem exec_tcfg {i : Instr} {s t : State} (h : exec i s = .next t) (hidle : s.busy = false) :
    t.tcfg = if i = .tx then Config.params.periodicCfg else s.tcfg := by
  by_cases htx : i = .tx
  · subst htx
    rw [exec_tx_idle hidle] at h
    cases h
    rfl
  · obtain ⟨rfl, -⟩ | hkeeps := exec_transmitter h
    · exact absurd rfl htx
    · rw [hkeeps.tcfg_eq, if_neg htx]

/-- Settles O50: a busy block by whether it takes a tick, an idle one by what the host offers it. -/
theorem timerChangesAreTheBlocksWrites : Obligations.TimerChangesAreTheBlocksWrites := by
  intro s t x rest hin hstep hreset hnoTimer
  change t.tcfg = (timerWrite Config.params x s).getD s.tcfg
  cases hbusy : s.busy with
  | true =>
    cases htick : x.tick with
    | true =>
      have htaken : (s.busy && x.tick) = true := by simp [hbusy, htick]
      rw [step_of_tick hin hreset htaken] at hstep
      cases hstep
      have htcfg := tick_tcfg Config.params (s := { s with inputs := rest }) hbusy
      rw [htcfg, timerWrite_of_tick _ hreset htaken]
      split <;> rfl
    | false =>
      rw [step_of_busy_noTick hbusy hin hreset htick] at hstep
      cases hstep
      rw [timerWrite_of_busy_noTick _ hbusy htick]
      rfl
  | false =>
    have htick : (s.busy && x.tick) = false := by simp [hbusy]
    cases hhost : x.host with
    | none =>
      rw [step_of_noHostAct hin hreset htick hhost] at hstep
      cases hstep
      rw [timerWrite_of_idle_noHostAct _ hbusy hhost]
      rfl
    | some a =>
      rw [step_of_hostAct hin hreset htick hhost] at hstep
      cases a with
      | setTimer c => exact absurd hhost (hnoTimer c)
      | command bytes =>
        obtain ⟨i, hdecode, hexec⟩ := issue_next_idle hstep hbusy
        rw [exec_tcfg hexec hbusy, timerWrite_of_idle_command _ hreset hbusy hhost hdecode]
        split <;> rfl

end Sys2Proof.Machine
end

section
/-! The host's temperature and humidity operands (30_encoding.md R59, R60). -/

namespace Sys2Proof.Machine

/-! ### Temperature -/

/-- The exact scaling is the sign and the truncated tenths. -/
theorem exactScale10_eq (t : ℚ) : exactScale10 t = (decide (t < 0), ⌊|t| * 10⌋.toNat) := by
  have htenths : |t| * 10 = ((t.num.natAbs * 10 : ℕ) : ℚ) / t.den := by
    rw [Rat.abs_def, Rat.divInt_eq_div]
    simp only [Int.cast_natCast, Nat.cast_mul, Nat.cast_ofNat]
    ring
  rw [exactScale10, htenths, Int.floor_toNat, Nat.floor_div_eq_div]
  simp only [Rat.num_neg]

theorem packTemp_of_lt {m : Nat} (s : Bool) (h : m < 32768) :
    packTemp s m = some (BitVec.ofBool s ++ BitVec.ofNat 15 m) :=
  if_pos h

theorem packTemp_of_ge {m : Nat} (s : Bool) (h : 32768 ≤ m) : packTemp s m = none :=
  if_neg h.not_gt

theorem tempSign_pack (s : Bool) (m : BitVec 15) : tempSign (BitVec.ofBool s ++ m) = s := by
  simp only [tempSign, BitVec.getLsbD_append]
  simp

theorem tempMagnitude_pack (s : Bool) (m : BitVec 15) : tempMagnitude (BitVec.ofBool s ++ m) = m.toNat := by
  have hfield : (BitVec.ofBool s ++ m).extractLsb' 0 15 = m := by
    ext k hk
    simp only [BitVec.getElem_extractLsb', BitVec.getLsbD_append]
    simp [hk]
  rw [tempMagnitude, hfield]

/-- The truncated tenths fit 15 bits exactly when the tenths are below 32768. -/
theorem truncatedTenths_lt_iff (t : ℚ) : ⌊|t| * 10⌋.toNat < 32768 ↔ |t| * 10 < 32768 := by
  rw [Int.floor_toNat, Nat.floor_lt (by positivity), Nat.cast_ofNat]

theorem settempf_of_lt {t : ℚ} (h : |t| * 10 < 32768) :
    settempf (.rational t) =
      some (.settemp (BitVec.ofBool (decide (t < 0)) ++ BitVec.ofNat 15 ⌊|t| * 10⌋.toNat)) := by
  simp only [settempf, tempOperand, exactScale10_eq, packTemp_of_lt _ ((truncatedTenths_lt_iff t).mpr h),
    Option.map_some]

theorem settempf_of_ge {t : ℚ} (h : 32768 ≤ |t| * 10) : settempf (.rational t) = none := by
  have hlarge : 32768 ≤ ⌊|t| * 10⌋.toNat := not_lt.mp ((truncatedTenths_lt_iff t).not.mpr h.not_gt)
  simp only [settempf, tempOperand, exactScale10_eq, packTemp_of_ge _ hlarge, Option.map_none]

/-- What the parameters require of a host's own scaling, as commands (30_encoding.md R60). -/
theorem settempfScaled_tenths (p : Params) (k : ℤ) :
    settempfScaled p (.rational (k / 10)) = settempf (.rational (k / 10)) :=
  congrArg (Option.map Instr.settemp) (p.scale10_tenths k)

theorem encodeReport_of_no_temperature (id ch : Byte) {t : HostNumber} (h : HostNumber) (low : Bool)
    (ht : settempf t = none) : encodeReport id ch t h low = none := by
  simp only [encodeReport, ht]

/-- Settles O35: the operand packs the exact scaling, and exists exactly where the tenths fit 15 bits. -/
theorem temperatureOperandTruncates : Obligations.TemperatureOperandTruncates := by
  refine ⟨fun t ht => ?_, fun t => settempf_of_ge, ⟨rfl, fun _ => rfl⟩,
    fun id ch t h low => encodeReport_of_no_temperature id ch h low, settempfScaled_tenths⟩
  refine ⟨_, settempf_of_lt ht, tempSign_pack .., ?_⟩
  have hfits : ⌊|t| * 10⌋.toNat < 2 ^ 15 := (truncatedTenths_lt_iff t).mpr ht
  rw [tempMagnitude_pack, BitVec.toNat_ofNat, Nat.mod_eq_of_lt hfits]
  exact Int.toNat_of_nonneg (Int.floor_nonneg.mpr (by positivity))

/-! ### Humidity -/

/-- Half-way values up: from 255.5 on the nearest whole percent is past 255. -/
theorem roundedPercent_le_iff (h : ℚ) : ⌊h + 1 / 2⌋ ≤ 255 ↔ h < 511 / 2 := by
  have hbound : ((255 + 1 : ℤ) : ℚ) - 1 / 2 = 511 / 2 := by norm_num
  rw [← Int.lt_add_one_iff, Int.floor_lt, ← lt_sub_iff_add_lt, hbound]

theorem sethumf_of_mem {h : ℚ} (hnonneg : 0 ≤ h) (hlt : h < 511 / 2) :
    sethumf (.rational h) = some (.sethum (BitVec.ofNat 8 ⌊h + 1 / 2⌋.toNat)) :=
  congrArg (Option.map Instr.sethum) (if_pos ⟨hnonneg, (roundedPercent_le_iff h).mpr hlt⟩)

theorem sethumf_of_not_mem {h : ℚ} (hout : h < 0 ∨ 511 / 2 ≤ h) : sethumf (.rational h) = none := by
  refine congrArg (Option.map Instr.sethum) (if_neg ?_)
  rintro ⟨hnonneg, hle⟩
  have hlt := (roundedPercent_le_iff h).mp hle
  obtain hneg | hge := hout <;> linarith

theorem encodeReport_of_no_humidity (id ch : Byte) (t : HostNumber) {h : HostNumber} (low : Bool)
    (hh : sethumf h = none) : encodeReport id ch t h low = none := by
  simp only [encodeReport, hh]
  cases settempf t <;> rfl

/-- Settles O36: the operand is the floor of the number and a half, which lies within a half of it. -/
theorem humidityOperandRoundsHalfUp : Obligations.HumidityOperandRoundsHalfUp := by
  refine ⟨fun h hnonneg hlt => ?_, fun h => sethumf_of_not_mem, rfl,
    fun id ch t h low => encodeReport_of_no_humidity id ch t low⟩
  have hfloor : 0 ≤ ⌊h + 1 / 2⌋ := Int.floor_nonneg.mpr (by linarith)
  have hle : ⌊h + 1 / 2⌋ ≤ 255 := (roundedPercent_le_iff h).mpr hlt
  have hoperand : ((BitVec.ofNat 8 ⌊h + 1 / 2⌋.toNat).toNat : ℤ) = ⌊h + 1 / 2⌋ := by
    rw [BitVec.toNat_ofNat, Nat.mod_eq_of_lt (by omega), Int.toNat_of_nonneg hfloor]
  have hoperandQ : ((BitVec.ofNat 8 ⌊h + 1 / 2⌋.toNat).toNat : ℚ) = (⌊h + 1 / 2⌋ : ℤ) := by exact_mod_cast hoperand
  refine ⟨_, sethumf_of_mem hnonneg hlt, ?_, ?_⟩
  · linarith [Int.floor_le (h + 1 / 2)]
  · linarith [Int.lt_floor_add_one (h + 1 / 2)]

end Sys2Proof.Machine
end

section
/-! The nibble sum with its end-around carry (40_checksum_engine.md R66, R67): in whatever order nibbles are added, the
register holds the closed form of their plain sum. -/

namespace Sys2Proof.Machine

/-! ### The closed form -/

theorem nsumClosedForm_of_le {T : Nat} (h : T ≤ 255) : nsumClosedForm T = T := by
  unfold nsumClosedForm
  split <;> omega

/-- One period above: every sum of nibbles reaches at most 360 = 255 + 105. -/
theorem nsumClosedForm_of_gt {T : Nat} (hlo : 255 < T) (hhi : T ≤ 510) : nsumClosedForm T = T - 255 := by
  unfold nsumClosedForm
  split <;> omega

theorem nsumClosedForm_le (T : Nat) : nsumClosedForm T ≤ 255 := by
  unfold nsumClosedForm
  split <;> omega

/-- The closed form has period 255 on the positive numbers. -/
theorem nsumClosedForm_sub {T : Nat} (h : 255 < T) : nsumClosedForm (T - 255) = nsumClosedForm T := by
  unfold nsumClosedForm
  split <;> split <;> omega

/-- The carry folded back does not change the closed form of what the whole addition will reach. -/
theorem nsumClosedForm_addFold {r : BitVec 9} (n : Nibble) (k : Nat) (h : r.toNat ≤ 255) :
    nsumClosedForm ((addFold r n).toNat + k) = nsumClosedForm (r.toNat + (n.toNat + k)) := by
  rw [addFold_toNat r n h, ← Nat.add_assoc]
  split
  case isTrue => rfl
  case isFalse hcarry => rw [← Nat.sub_add_comm (by omega), nsumClosedForm_sub (by omega)]

theorem addFold_le {r : BitVec 9} (n : Nibble) (h : r.toNat ≤ 255) : (addFold r n).toNat ≤ 255 := by
  rw [addFold_toNat r n h]
  split <;> omega

/-! ### The plain sum -/

/-- The plain sum of the nibbles at the listed positions; over the selected ones it is the `T` of R67
(`nibbleSum_selected`). -/
def nibbleSum (F : Frame) (positions : List (Fin 24)) : Nat :=
  (positions.map fun i => (nib F i).toNat).sum

theorem nibbleSum_le (F : Frame) (positions : List (Fin 24)) : nibbleSum F positions ≤ positions.length * 15 := by
  simpa [nibbleSum] using List.sum_le_card_nsmul (positions.map fun i => (nib F i).toNat) 15
    (List.forall_mem_map.mpr fun i _ => Nat.le_of_lt_succ (nib F i).isLt)

theorem nibbleSum_perm (F : Frame) {order positions : List (Fin 24)} (h : order.Perm positions) :
    nibbleSum F order = nibbleSum F positions :=
  (h.map _).sum_eq

theorem nibbleSum_selected (F : Frame) (mask : BitVec 64) : nibbleSum F (selected mask) = nibbleTotal F mask := by
  simp [nibbleSum, selected, nibbleTotal, nib_toNat, List.sum_map_ite]

theorem length_selected_le (mask : BitVec 64) : (selected mask).length ≤ 24 :=
  (List.length_filter_le _ _).trans_eq List.length_finRange

theorem nibbleTotal_le (F : Frame) (mask : BitVec 64) : nibbleTotal F mask ≤ (selected mask).length * 15 :=
  nibbleSum_selected F mask ▸ nibbleSum_le F (selected mask)

/-! ### The register -/

theorem foldl_addFold_toNat (F : Frame) (order : List (Fin 24)) {r : BitVec 9} (h : r.toNat ≤ 255) :
    (order.foldl (fun sumr i => addFold sumr (nib F i)) r).toNat = nsumClosedForm (r.toNat + nibbleSum F order) := by
  induction order generalizing r with
  | nil => exact (nsumClosedForm_of_le h).symm
  | cons i order ih => exact (ih (addFold_le _ h)).trans (nsumClosedForm_addFold _ _ h)

/-- In any order of addition the register ends with its overflow bit clear and the closed form below it. -/
theorem foldl_addFold_zero_toNat (F : Frame) (order : List (Fin 24)) :
    (order.foldl (fun sumr i => addFold sumr (nib F i)) 0).toNat = nsumClosedForm (nibbleSum F order) := by
  simpa using foldl_addFold_toNat F order (r := 0) (Nat.zero_le 255)

theorem nsumRegister_toNat (F : Frame) (mask : BitVec 64) :
    (nsumRegister F mask).toNat = nsumClosedForm (nibbleTotal F mask) :=
  nibbleSum_selected F mask ▸ foldl_addFold_zero_toNat F (selected mask)

theorem nsumRegister_eq (F : Frame) (mask : BitVec 64) : nsumRegister F mask = (nsum F mask).setWidth 9 := by
  have hclear : (nsumRegister F mask).toNat ≤ 255 := nsumRegister_toNat F mask ▸ nsumClosedForm_le _
  apply BitVec.eq_of_toNat_eq
  simp only [nsum, BitVec.toNat_setWidth]
  omega

theorem nsum_toNat (F : Frame) (mask : BitVec 64) : (nsum F mask).toNat = nsumClosedForm (nibbleTotal F mask) := by
  have hreg := congrArg BitVec.toNat (nsumRegister_eq F mask)
  rw [BitVec.toNat_setWidth_of_le (by decide), nsumRegister_toNat] at hreg
  exact hreg.symm

theorem foldl_addFold_perm (F : Frame) {order positions : List (Fin 24)} (h : order.Perm positions) :
    order.foldl (fun sumr i => addFold sumr (nib F i)) 0 = positions.foldl (fun sumr i => addFold sumr (nib F i)) 0 :=
  BitVec.eq_of_toNat_eq <| by
    rw [foldl_addFold_zero_toNat, foldl_addFold_zero_toNat, nibbleSum_perm F h]

/-! ### The statements -/

/-- Settles O14: the register holds the closed form of the plain sum, which knows no order and is at most 15 for each
selected nibble. -/
theorem nibbleSumClosedForm : Obligations.NibbleSumClosedForm := by
  refine ⟨fun F mask => ?_, by decide⟩
  have hlength := length_selected_le mask
  have htotal := nibbleTotal_le F mask
  have hsum := nsum_toNat F mask
  refine ⟨by omega, hsum, fun hsmall => ?_, fun hlarge => ?_, fun order hperm => ?_, by omega⟩
  · rw [hsum, nsumClosedForm_of_le hsmall]
    omega
  · rw [hsum, nsumClosedForm_of_gt hlarge (by omega)]
    omega
  · rw [foldl_addFold_perm F hperm]
    rfl

/-- Settles O15, from the closed form of the register. -/
theorem nsumWritesFoldedSum : Obligations.NsumWritesFoldedSum := fun s mask hidle hmask =>
  ⟨_, exec_nsum_idle hidle (maskDefined_iff.mpr hmask), nsum_toNat s.bytes mask, nsumRegister_eq s.bytes mask, rfl⟩

end Sys2Proof.Machine
end

section
/-! The CRC as a map over GF(2) (40_checksum_engine.md R68 to R73): the whole computation is one string of bits shifted
through the register, and a shift is linear in the register and the entering bit together. -/

namespace Sys2Proof.Machine

/-! ### One shift -/

theorem shiftedIn_toNat (r : Byte) (b : Bool) :
    (r.extractLsb' 0 7 ++ BitVec.ofBool b).toNat = (2 * r.toNat + b.toNat) % 256 := by
  have hbit : b.toNat < 2 ^ 1 := b.toNat_lt
  rw [BitVec.toNat_append, BitVec.toNat_ofBool, ← Nat.shiftLeft_add_eq_or_of_lt hbit]
  simp only [BitVec.extractLsb'_toNat, Nat.shiftRight_zero, Nat.shiftLeft_eq]
  omega

theorem getLsbD_seven_eq_decide (r : Byte) : r.getLsbD 7 = decide (128 ≤ r.toNat) :=
  (BitVec.msb_eq_getLsbD_last r).symm.trans (BitVec.msb_eq_decide r)

/-- The shift as arithmetic on numbers, split on the bit that leaves (R69). -/
theorem crcShift_toNat (r : Byte) (b : Bool) :
    (crcShift r b).toNat =
      if 128 ≤ r.toNat then (2 * r.toNat + b.toNat - 256) ^^^ 7 else 2 * r.toNat + b.toNat := by
  have hr := r.isLt
  have hb := b.toNat_lt
  simp only [crcShift, getLsbD_seven_eq_decide, decide_eq_true_eq]
  split
  case isTrue hout =>
    have hmod : (2 * r.toNat + b.toNat) % 256 = 2 * r.toNat + b.toNat - 256 := by omega
    rw [BitVec.toNat_xor, shiftedIn_toNat, hmod]
    rfl
  case isFalse hout => rw [shiftedIn_toNat, Nat.mod_eq_of_lt (by omega)]

/-- A selected constant, as a function of the selecting bit, is linear. -/
theorem ite_bne_xor (c : Byte) (b b' : Bool) :
    (if b ^^ b' then c else 0) = (if b then c else 0) ^^^ (if b' then c else 0) := by
  cases b <;> cases b' <;> simp

theorem crcShift_xor (r s : Byte) (b c : Bool) : crcShift (r ^^^ s) (b ^^ c) = crcShift r b ^^^ crcShift s c := by
  simp only [crcShift_eq, BitVec.shiftLeft_xor_distrib, BitVec.getLsbD_xor, ite_bne_xor]
  ac_rfl

theorem crcShift_eq_xor (r : Byte) (b : Bool) : crcShift r b = crcShift r false ^^^ (if b then 1 else 0) := by
  simp [crcShift_eq]

/-- The conventional loop adds its bit at the top: where that bit is 1 the polynomial is added once more. -/
theorem crcConvShift_eq (r : Byte) (b : Bool) :
    crcConvShift r b = crcShift r false ^^^ (if b then crcPoly else 0) := by
  unfold crcConvShift crcShift
  cases b <;> cases r.getLsbD 7 <;> simp

/-- `x` is invertible modulo the polynomial (R73): no register but 0 is shifted to 0, because the polynomial's constant
term is 1 and the number it would have to cancel is even. -/
theorem eq_zero_of_crcShift_eq_zero {r : Byte} (h : crcShift r false = 0) : r = 0 := by
  have hzero := (crcShift_toNat r false).symm.trans (congrArg BitVec.toNat h)
  rw [Bool.toNat_false] at hzero
  apply BitVec.eq_of_toNat_eq
  split at hzero
  case isTrue hout =>
    have heven : 2 * r.toNat + 0 - 256 = 7 := Nat.xor_eq_zero_iff.mp hzero
    omega
  case isFalse hout => simpa using hzero

theorem crcShift_injective (b : Bool) : Function.Injective (crcShift · b) := by
  intro r s h
  have hdiff : crcShift (r ^^^ s) false = 0 := by
    rw [← Bool.xor_self b, crcShift_xor]
    exact BitVec.xor_eq_zero_iff.mpr h
  exact BitVec.xor_eq_zero_iff.mp (eq_zero_of_crcShift_eq_zero hdiff)

/-! ### Strings of bits -/

theorem crcBits_xor (r s : Byte) {bs cs : List Bool} (h : bs.length = cs.length) :
    crcBits (r ^^^ s) (List.zipWith (· ^^ ·) bs cs) = crcBits r bs ^^^ crcBits s cs := by
  induction bs generalizing r s cs with
  | nil => obtain rfl := List.length_eq_zero_iff.mp h.symm; rfl
  | cons b bs ih =>
    cases cs with
    | nil => cases h
    | cons c cs =>
      have hstep := ih (crcShift r b) (crcShift s c) (Nat.succ.inj h)
      rwa [← crcShift_xor] at hstep

/-- The same string through two registers: their difference goes through as many zero bits. -/
theorem crcBits_xor_self (r s : Byte) (bs : List Bool) :
    crcBits r bs ^^^ crcBits s bs = crcBits (r ^^^ s) (List.replicate bs.length false) := by
  rw [← crcBits_xor r s rfl]
  simp

theorem crcBits_injective (bs : List Bool) : Function.Injective (crcBits · bs) := by
  induction bs with
  | nil => exact Function.injective_id
  | cons b bs ih => exact ih.comp (crcShift_injective b)

theorem crcFlush_xor (r s : Byte) : crcFlush (r ^^^ s) = crcFlush r ^^^ crcFlush s :=
  (crcBits_xor_self r s (List.replicate 8 false)).symm

/-- Both sides are nine zero bits through the register. -/
theorem crcFlush_crcShift_false (r : Byte) : crcFlush (crcShift r false) = crcShift (crcFlush r) false := rfl

/-- The flush turns a bit entering at the bottom into one added at the top (R70). -/
theorem crcFlush_crcShift (r : Byte) (b : Bool) : crcFlush (crcShift r b) = crcConvShift (crcFlush r) b := by
  have hbit : crcFlush (if b then 1 else 0) = if b then crcPoly else 0 := by cases b <;> decide
  rw [crcShift_eq_xor, crcFlush_xor, crcFlush_crcShift_false, hbit, crcConvShift_eq]

theorem crcFlush_crcBits (r : Byte) (bs : List Bool) :
    crcFlush (crcBits r bs) = bs.foldl crcConvShift (crcFlush r) := by
  induction bs generalizing r with
  | nil => rfl
  | cons b bs ih => exact (ih (crcShift r b)).trans (by rw [crcFlush_crcShift, List.foldl_cons])

/-! ### The message -/

/-- The selected nibbles as one bit string, in the order they enter the CRC: the `M` of R70. -/
def crcMessage (F : Frame) (mask : BitVec 64) : List Bool :=
  (selected mask).flatMap fun i => nibbleBits (nib F i)

theorem crc8_eq_flush (F : Frame) (mask : BitVec 64) (init : Byte) :
    crc8 F mask init = crcFlush (crcBits init (crcMessage F mask)) := by
  rw [crcBits, crcMessage, List.foldl_flatMap]
  rfl

theorem crcConv_eq_foldl (F : Frame) (mask : BitVec 64) (J : Byte) :
    crcConv F mask J = (crcMessage F mask).foldl crcConvShift J := by
  rw [crcMessage, List.foldl_flatMap]
  rfl

theorem length_crcMessage (F : Frame) (mask : BitVec 64) :
    (crcMessage F mask).length = (selected mask).length * 4 := by
  simp [crcMessage, nibbleBits]

theorem nib_xor (F G : Frame) (i : Fin 24) : nib (fun j => F j ^^^ G j) i = nib F i ^^^ nib G i :=
  BitVec.extractLsb'_xor

theorem nibbleBits_xor (m n : Nibble) :
    nibbleBits (m ^^^ n) = List.zipWith (· ^^ ·) (nibbleBits m) (nibbleBits n) := by
  simp [nibbleBits]

theorem crcMessage_xor (F G : Frame) (mask : BitVec 64) :
    crcMessage (fun j => F j ^^^ G j) mask = List.zipWith (· ^^ ·) (crcMessage F mask) (crcMessage G mask) := by
  unfold crcMessage
  induction selected mask with
  | nil => rfl
  | cons i positions ih =>
    have hlength : (nibbleBits (nib F i)).length = (nibbleBits (nib G i)).length := rfl
    simp only [List.flatMap_cons]
    rw [List.zipWith_append hlength, ← ih, nib_xor, nibbleBits_xor]

/-! ### The CRC -/

/-- The CRC is linear in the frame and the initial value together. -/
theorem crc8_xor (F G : Frame) (mask : BitVec 64) (a b : Byte) :
    crc8 (fun j => F j ^^^ G j) mask (a ^^^ b) = crc8 F mask a ^^^ crc8 G mask b := by
  have hlength : (crcMessage F mask).length = (crcMessage G mask).length := by simp only [length_crcMessage]
  simp only [crc8_eq_flush]
  rw [crcMessage_xor, crcBits_xor a b hlength, crcFlush_xor]

theorem crc8_xor_crc8 (F : Frame) (mask : BitVec 64) (a b : Byte) :
    crc8 F mask a ^^^ crc8 F mask b =
      crcFlush (crcBits (a ^^^ b) (List.replicate ((selected mask).length * 4) false)) := by
  rw [crc8_eq_flush, crc8_eq_flush, ← crcFlush_xor, crcBits_xor_self, length_crcMessage]

theorem crc8_injective (F : Frame) (mask : BitVec 64) : Function.Injective (crc8 F mask) := by
  intro a b h
  rw [crc8_eq_flush, crc8_eq_flush] at h
  exact crcBits_injective _ (crcBits_injective _ h)

theorem crc8_eq_crcConv (F : Frame) (mask : BitVec 64) (init : Byte) :
    crc8 F mask init = crcConv F mask (crcFlush init) := by
  rw [crc8_eq_flush, crcFlush_crcBits, crcConv_eq_foldl]

/-! ### The statements -/

/-- Settles O16: the shift as arithmetic, and the rule's examples evaluated. -/
theorem crcShiftEntersBitAndFoldsTopBit : Obligations.CrcShiftEntersBitAndFoldsTopBit :=
  ⟨crcShift_toNat, by decide⟩

/-- Settles O17: the empty message leaves only the flush. -/
theorem emptyMaskCrcIsFlush : Obligations.EmptyMaskCrcIsFlush := by
  refine ⟨fun F init => ?_, by decide⟩
  have hempty : selected 0 = [] := by simp [selected]
  rw [crc8, hempty, List.foldl_nil]

/-- Settles O18, bit by bit of the message. -/
theorem crcEqualsConventionalLoop : Obligations.CrcEqualsConventionalLoop :=
  crc8_eq_crcConv

/-- Settles O19: linearity gives the dependence on the initial values' difference and on the nibbles, and injectivity on
a finite type is bijectivity. -/
theorem crcIsAffineAndBijective : Obligations.CrcIsAffineAndBijective := by
  refine ⟨fun F G mask mask' a b a' b' hlength hdiff => ?_, fun F G H mask init => ?_, fun F mask => ?_⟩
  · rw [crc8_xor_crc8, crc8_xor_crc8, hlength, hdiff]
  · rw [← crc8_xor, ← crc8_xor, BitVec.xor_self, BitVec.zero_xor]
  · exact Finite.injective_iff_bijective.mp (crc8_injective F mask)

/-- Settles O20, with the CRC read in its conventional form. -/
theorem crc8WritesCrc : Obligations.Crc8WritesCrc := fun s init mask hidle hmask =>
  ⟨_, exec_crc8_idle hidle (maskDefined_iff.mpr hmask), crc8_eq_crcConv s.bytes mask init, rfl, rfl⟩

end Sys2Proof.Machine
end

section
/-! What each setter writes, read field by field: a rewritten field holds its operand's code, its neighbour in the byte
is kept (41_frame_encoder.md R81 to R85), and the decoding functions give the operand back (R90). -/

namespace Sys2Proof.Machine

/-! ### The channel -/

theorem channelDefined_iff {a : Byte} : channelDefined a = true ↔ 1 ≤ a.toNat ∧ a.toNat ≤ 3 := by
  simp only [channelDefined, Bool.or_eq_true, beq_iff_eq, ← BitVec.toNat_inj, BitVec.ofNat_eq_ofNat,
    BitVec.toNat_ofNat]
  omega

theorem channelCode_toNat {a : Byte} (h : channelDefined a = true) : (channelCode a).toNat = 2 ^ (a.toNat - 1) := by
  obtain ⟨hlo, hhi⟩ := channelDefined_iff.mp h
  unfold channelCode
  generalize a.toNat = n at hlo hhi
  interval_cases n <;> rfl

theorem exec_setch_refused {s : State} {a : Byte} (h : s.busy = false) (ha : ¬ channelDefined a = true) :
    exec (.setch a) s = .refused (.channelUndefined a) :=
  (accept_idle h).trans (if_neg ha)

/-- Both nibbles of the channel byte after `SETCH`. -/
theorem setChannel_nibbles (p : Params) (a : Byte) (s : State) :
    ((rmw p 4 0xF0 (nibbles (channelCode a) 0) s).frame p 4).extractLsb' 4 4 = channelCode a ∧
    ((rmw p 4 0xF0 (nibbles (channelCode a) 0) s).frame p 4).extractLsb' 0 4 = (s.frame p 4).extractLsb' 0 4 := by
  rw [setChannel_frame, if_pos rfl]
  exact rewriteHigh_fields _ _

/-- The channel is read back from its one-hot code. -/
theorem decChan_of_channelCode {F : Frame} {a : Byte} (h : channelDefined a = true)
    (hcode : (F 4).extractLsb' 4 4 = channelCode a) : decChan F = some a.toNat := by
  obtain ⟨hlo, hhi⟩ := channelDefined_iff.mp h
  rw [decChan, hcode, channelCode]
  generalize a.toNat = n at hlo hhi
  interval_cases n <;> rfl

/-- Settles O23: the high nibble of byte 4 is rewritten where the operand is a channel. -/
theorem setchWritesOneHotCode : Obligations.SetchWritesOneHotCode := by
  refine ⟨fun _ => rfl, fun s a hidle => ⟨fun hlo hhi => ?_, fun hout => ?_⟩⟩
  · have hdefined : channelDefined a = true := channelDefined_iff.mpr ⟨hlo, hhi⟩
    obtain ⟨hcode, hkept⟩ := setChannel_nibbles Config.params a s
    exact ⟨_, exec_setch_idle hidle hdefined, (congrArg BitVec.toNat hcode).trans (channelCode_toNat hdefined), hkept,
      fun j hj => (setChannel_frame Config.params a s j).trans (if_neg hj), changesOnlyFrame_rmw ..⟩
  · refine exec_setch_refused hidle fun hdefined => ?_
    have hrange := channelDefined_iff.mp hdefined
    omega

/-! ### The rolling ID -/

/-- Settles O24: `SETID` owns byte 5 whole. -/
theorem setidStoresOperand : Obligations.SetidStoresOperand :=
  ⟨fun _ => rfl, fun s a hidle =>
    ⟨_, exec_setid_idle hidle, setRollingId_frame Config.params a s, changesOnlyFrame_rmw ..⟩⟩

/-! ### The temperature -/

/-- The sign takes bits 3:2 of its nibble (00_scope.md R6): the two bits below it are free for the hundreds. -/
theorem signNibble_low (p : Params) (negative : Bool) : (signNibble p negative).extractLsb' 0 2 = 0#2 := by
  cases negative with
  | false => rfl
  | true => obtain h | h | h := p.signNeg_legal <;> rw [signNibble, if_pos rfl, h] <;> rfl

theorem signNibble_high (p : Params) (negative : Bool) :
    (signNibble p negative).extractLsb' 2 2 = if negative then p.signNeg.extractLsb' 2 2 else 0#2 := by
  rw [signNibble, apply_ite (BitVec.extractLsb' 2 2)]
  rfl

/-- A negative temperature's sign field is not the positive one's. -/
theorem signNeg_high_ne_zero (p : Params) : p.signNeg.extractLsb' 2 2 ≠ 0#2 := by
  obtain h | h | h := p.signNeg_legal <;> rw [h] <;> decide

theorem hundredsField_low (m : Nat) : ((hundredsField m).extractLsb' 0 2).toNat = m / 1000 % 4 := by
  simp only [hundredsField, BitVec.extractLsb'_toNat, BitVec.toNat_ofNat, Nat.shiftRight_zero]
  omega

theorem hundredsField_high (m : Nat) : (hundredsField m).extractLsb' 2 2 = 0#2 := by
  apply BitVec.eq_of_toNat_eq
  simp only [hundredsField, BitVec.extractLsb'_toNat, BitVec.toNat_ofNat, Nat.shiftRight_eq_div_pow]
  omega

/-- The low nibble of byte 8 holds the sign above the hundreds. -/
theorem signAndHundreds_fields (p : Params) (negative : Bool) (m : Nat) :
    ((signNibble p negative ||| hundredsField m).extractLsb' 0 2).toNat = m / 1000 % 4 ∧
    (signNibble p negative ||| hundredsField m).extractLsb' 2 2
      = if negative then p.signNeg.extractLsb' 2 2 else 0#2 := by
  rw [BitVec.extractLsb'_or, BitVec.extractLsb'_or, signNibble_low, signNibble_high, hundredsField_high,
    BitVec.zero_or, BitVec.or_zero]
  exact ⟨hundredsField_low m, rfl⟩

/-- A two-bit field in the low nibble of a byte is a field of that nibble. -/
theorem extractLsb'_of_lowNibble (b : Byte) {start : Nat} (h : start + 2 ≤ 4) :
    b.extractLsb' start 2 = (b.extractLsb' 0 4).extractLsb' start 2 := by
  ext k hk
  simp [show start + k < 4 by omega]

/-- The fields of a frame that hold a temperature: its four digits and its sign (41_frame_encoder.md R83). -/
structure HoldsTemperature (p : Params) (F : Frame) (negative : Bool) (m : Nat) : Prop where
  tenths : ((F 6).extractLsb' 4 4).toNat = m % 10
  ones : ((F 7).extractLsb' 0 4).toNat = m / 10 % 10
  tens : ((F 7).extractLsb' 4 4).toNat = m / 100 % 10
  hundreds : ((F 8).extractLsb' 0 2).toNat = m / 1000 % 4
  sign : (F 8).extractLsb' 2 2 = if negative then p.signNeg.extractLsb' 2 2 else 0#2

/-- `SETTEMP` puts its operand into the temperature's fields. -/
theorem writeTemperature_holds (p : Params) (sm : BitVec 16) (s : State) :
    HoldsTemperature p ((writeTemperature p sm s).frame p) (tempSign sm) (tempMagnitude sm) := by
  have hbyte6 : (writeTemperature p sm s).frame p 6 =
      (s.frame p 6 &&& 0x0F#8) ||| nibbles (decimalDigit 0 (tempMagnitude sm)) 0#4 := writeTemperature_frame p sm s 6
  have hbyte7 : (writeTemperature p sm s).frame p 7 =
      nibbles (decimalDigit 2 (tempMagnitude sm)) (decimalDigit 1 (tempMagnitude sm)) := writeTemperature_frame p sm s 7
  have hlow8 : ((writeTemperature p sm s).frame p 8).extractLsb' 0 4 =
      signNibble p (tempSign sm) ||| hundredsField (tempMagnitude sm) := by
    rw [writeTemperature_frame, if_pos rfl, (rewriteLow_fields _ _).1]
  obtain ⟨hhundreds, hsign⟩ := signAndHundreds_fields p (tempSign sm) (tempMagnitude sm)
  constructor
  case tenths => rw [hbyte6, (rewriteHigh_fields _ _).1, decimalDigit_toNat, Nat.pow_zero, Nat.div_one]
  case ones => rw [hbyte7, nibbles_low, decimalDigit_toNat, Nat.pow_one]
  case tens =>
    rw [hbyte7, nibbles_high, decimalDigit_toNat]
    rfl
  case hundreds => rw [extractLsb'_of_lowNibble _ (by decide), hlow8, hhundreds]
  case sign => rw [extractLsb'_of_lowNibble _ (by decide), hlow8, hsign]

/-- `SETTEMP` keeps its neighbours, the flag's nibble and the humidity's ones, and every other byte. -/
theorem writeTemperature_keeps (p : Params) (sm : BitVec 16) (s : State) :
    ((writeTemperature p sm s).frame p 6).extractLsb' 0 4 = (s.frame p 6).extractLsb' 0 4 ∧
    ((writeTemperature p sm s).frame p 8).extractLsb' 4 4 = (s.frame p 8).extractLsb' 4 4 ∧
    ∀ j, j ≠ 6 → j ≠ 7 → j ≠ 8 → (writeTemperature p sm s).frame p j = s.frame p j := by
  refine ⟨?_, ?_, fun j h6 h7 h8 => ?_⟩
  · rw [writeTemperature_frame]
    exact (rewriteHigh_fields _ _).2
  · rw [writeTemperature_frame]
    exact (rewriteLow_fields _ _).2
  · rw [writeTemperature_frame, if_neg h8, if_neg h7, if_neg h6]

/-- Four digits, the first of them two bits wide, spell a temperature up to 399.9. -/
theorem HoldsTemperature.decTemp_eq {p : Params} {F : Frame} {negative : Bool} {m : Nat}
    (h : HoldsTemperature p F negative m) : decTemp F = (negative, m % 4000) := by
  have hsign : ((F 8).extractLsb' 2 2 != 0) = negative := by
    rw [h.sign]
    cases negative with
    | false => rfl
    | true => exact bne_iff_ne.mpr (signNeg_high_ne_zero p)
  rw [decTemp, hsign, h.tenths, h.ones, h.tens, h.hundreds]
  congr 1
  omega

/-- The two operand bytes of `SETTEMP`, low byte first (30_encoding.md R51). -/
theorem encode_settemp (sm : BitVec 16) : encode (.settemp sm) = [0x12, sm.extractLsb' 0 8, sm.extractLsb' 8 8] := by
  have hlow : BitVec.ofNat 8 sm.toNat = sm.extractLsb' 0 8 := rfl
  have hhigh : BitVec.ofNat 8 (sm.toNat / 256) = sm.extractLsb' 8 8 := by
    apply BitVec.eq_of_toNat_eq
    rw [BitVec.extractLsb'_toNat, BitVec.toNat_ofNat, Nat.shiftRight_eq_div_pow]
  simp only [encode, leBytes, hlow, hhigh]

/-- Settles O25, from what `SETTEMP` writes and what it keeps. -/
theorem settempPacksDigitsAndSign : Obligations.SettempPacksDigitsAndSign := by
  refine ⟨encode_settemp, fun s sm m hidle hm => ⟨_, exec_settemp_idle hidle, ?_⟩⟩
  have hholds := writeTemperature_holds Config.params sm s
  rw [tempMagnitude_eq, ← hm, tempSign_eq] at hholds
  have hsign := hholds.sign
  simp only [decide_eq_true_eq] at hsign
  obtain ⟨hflag, hhumidity, hothers⟩ := writeTemperature_keeps Config.params sm s
  exact ⟨hholds.tenths, hholds.ones, hholds.tens, hholds.hundreds, hsign, hflag, hhumidity, hothers,
    changesOnlyFrame_writeTemperature ..⟩

/-! ### The humidity -/

/-- `SETHUM` puts the two digits of its operand into their fields. -/
theorem writeHumidity_digits (p : Params) (a : Byte) (s : State) :
    (((writeHumidity p a s).frame p 8).extractLsb' 4 4).toNat = a.toNat % 10 ∧
    (((writeHumidity p a s).frame p 9).extractLsb' 0 4).toNat = a.toNat / 10 % 10 := by
  have hbyte8 : (writeHumidity p a s).frame p 8 =
      (s.frame p 8 &&& 0x0F#8) ||| nibbles (decimalDigit 0 a.toNat) 0#4 := writeHumidity_frame p a s 8
  have hbyte9 : (writeHumidity p a s).frame p 9 =
      (s.frame p 9 &&& 0xF0#8) ||| nibbles 0#4 (decimalDigit 1 a.toNat) := writeHumidity_frame p a s 9
  constructor
  · rw [hbyte8, (rewriteHigh_fields _ _).1, decimalDigit_toNat, Nat.pow_zero, Nat.div_one]
  · rw [hbyte9, (rewriteLow_fields _ _).1, decimalDigit_toNat, Nat.pow_one]

/-- `SETHUM` keeps its neighbours, the temperature's nibble and the constant one, and every other byte. -/
theorem writeHumidity_keeps (p : Params) (a : Byte) (s : State) :
    ((writeHumidity p a s).frame p 8).extractLsb' 0 4 = (s.frame p 8).extractLsb' 0 4 ∧
    ((writeHumidity p a s).frame p 9).extractLsb' 4 4 = (s.frame p 9).extractLsb' 4 4 ∧
    ∀ j, j ≠ 8 → j ≠ 9 → (writeHumidity p a s).frame p j = s.frame p j := by
  refine ⟨?_, ?_, fun j h8 h9 => ?_⟩
  · rw [writeHumidity_frame]
    exact (rewriteHigh_fields _ _).2
  · rw [writeHumidity_frame]
    exact (rewriteLow_fields _ _).2
  · rw [writeHumidity_frame, if_neg h9, if_neg h8]

/-- Two digits spell a humidity up to 99; 100 is read back as 0. -/
theorem decHum_writeHumidity (p : Params) (a : Byte) (s : State) :
    decHum ((writeHumidity p a s).frame p) = a.toNat % 100 := by
  obtain ⟨hones, htens⟩ := writeHumidity_digits p a s
  rw [decHum, hones, htens]
  omega

/-- Settles O26, from what `SETHUM` writes and what it keeps. -/
theorem sethumPacksDigits : Obligations.SethumPacksDigits := by
  refine ⟨fun _ => rfl, fun s a hidle => ⟨_, exec_sethum_idle hidle, ?_⟩⟩
  obtain ⟨hones, htens⟩ := writeHumidity_digits Config.params a s
  obtain ⟨htemperature, hconstant, hothers⟩ := writeHumidity_keeps Config.params a s
  exact ⟨hones, htens, htemperature, hconstant, hothers, changesOnlyFrame_writeHumidity ..⟩

/-! ### The battery flag -/

theorem batteryDefined_iff {a : Byte} : batteryDefined a = true ↔ a.toNat ≤ 1 := by
  have ha := a.isLt
  simp only [batteryDefined, beq_iff_eq, ← BitVec.toNat_inj, BitVec.extractLsb'_toNat, Nat.shiftRight_eq_div_pow,
    BitVec.ofNat_eq_ofNat, BitVec.toNat_ofNat]
  omega

/-- Of a defined operand, bit 0 is all there is. -/
theorem batteryBit_iff {a : Byte} (h : batteryDefined a = true) : a.getLsbD 0 = true ↔ a.toNat = 1 := by
  have ha := batteryDefined_iff.mp h
  rw [BitVec.getLsbD, Nat.testBit_zero, decide_eq_true_eq]
  omega

theorem exec_setbat_refused {s : State} {a : Byte} (h : s.busy = false) (ha : ¬ batteryDefined a = true) :
    exec (.setbat a) s = .refused (.batteryNotBoolean a) :=
  (accept_idle h).trans (if_neg ha)

/-- `SETBAT` on an idle block: the flag's bits follow the operand, every other bit is kept. -/
theorem exec_setbat_flag {s : State} {a : Byte} (h : s.busy = false) (ha : batteryDefined a = true) :
    ∃ t, exec (.setbat a) s = .next t ∧
      (t.bytes 6).extractLsb' 0 4 &&& Config.params.lowbatBits
        = (if a.toNat = 1 then Config.params.lowbatBits else 0) ∧
      (t.bytes 6).extractLsb' 0 4 &&& ~~~Config.params.lowbatBits
        = (s.bytes 6).extractLsb' 0 4 &&& ~~~Config.params.lowbatBits ∧
      (t.bytes 6).extractLsb' 4 4 = (s.bytes 6).extractLsb' 4 4 ∧
      (∀ j, j ≠ 6 → t.bytes j = s.bytes j) ∧ ChangesOnlyFrame s t := by
  obtain ⟨hflag, hrest, hhigh⟩ := rewriteFlag_fields Config.params.lowbatBits (s.bytes 6) (a.getLsbD 0)
  simp only [batteryBit_iff ha] at hflag hrest hhigh
  refine ⟨_, exec_setbat_idle h ha, ?_⟩
  simp only [State.bytes, rmw_frame, batteryBit_iff ha, Function.update_self]
  exact ⟨hflag, hrest, hhigh, fun j hj => Function.update_of_ne hj _ _, changesOnlyFrame_rmw ..⟩

/-- Settles O27: exactly the operands 0 and 1 are defined. -/
theorem setbatSetsFlagBits : Obligations.SetbatSetsFlagBits :=
  ⟨fun _ => rfl, fun _ _ hidle =>
    ⟨fun hle => exec_setbat_flag hidle (batteryDefined_iff.mpr hle), fun hge =>
      exec_setbat_refused hidle fun hdefined => absurd (batteryDefined_iff.mp hdefined) (by omega)⟩⟩

/-! ### The round trip -/

section
variable {s : State} (h : s.busy = false)
include h

/-- `SETCH` on an idle block, read back. -/
theorem exec_setch_decChan {a : Byte} (ha : channelDefined a = true) :
    ∃ t, exec (.setch a) s = .next t ∧ t.busy = false ∧ decChan t.bytes = some a.toNat :=
  ⟨_, exec_setch_idle h ha, h, decChan_of_channelCode ha (setChannel_nibbles Config.params a s).1⟩

/-- `SETTEMP` on an idle block, read back. -/
theorem exec_settemp_decTemp (sm : BitVec 16) :
    ∃ t, exec (.settemp sm) s = .next t ∧ t.busy = false ∧ decTemp t.bytes = (tempSign sm, tempMagnitude sm % 4000) :=
  ⟨_, exec_settemp_idle h, h, (writeTemperature_holds Config.params sm s).decTemp_eq⟩

/-- `SETHUM` on an idle block, read back. -/
theorem exec_sethum_decHum (a : Byte) :
    ∃ t, exec (.sethum a) s = .next t ∧ t.busy = false ∧ decHum t.bytes = a.toNat % 100 :=
  ⟨_, exec_sethum_idle h, h, decHum_writeHumidity Config.params a s⟩

end

/-- The magnitude of a packed operand that its digits can spell. -/
theorem tempMagnitude_pack_mod (negative : Bool) {m : Nat} (h : m < 4000) :
    tempMagnitude (BitVec.ofBool negative ++ BitVec.ofNat 15 m) % 4000 = m := by
  rw [tempMagnitude_pack, BitVec.toNat_ofNat]
  omega

/-- A humidity operand that its digits can spell. -/
theorem humidity_ofNat_mod {r : Nat} (h : r < 100) : (BitVec.ofNat 8 r).toNat % 100 = r := by
  rw [BitVec.toNat_ofNat]
  omega

/-- Settles O30: each setter is read back whole in the range its digits or code can spell. -/
theorem packedFieldsRoundTrip : Obligations.PackedFieldsRoundTrip := by
  refine fun s hidle => ⟨fun negative m hm => ?_, fun r hr => ?_, fun n hlo hhi => ?_⟩
  · obtain ⟨t, ht, -, hread⟩ := exec_settemp_decTemp hidle (BitVec.ofBool negative ++ BitVec.ofNat 15 m)
    rw [tempSign_pack, tempMagnitude_pack_mod negative (by omega)] at hread
    exact ⟨t, ht, hread⟩
  · obtain ⟨t, ht, -, hread⟩ := exec_sethum_decHum hidle (BitVec.ofNat 8 r)
    rw [humidity_ofNat_mod (by omega)] at hread
    exact ⟨t, ht, hread⟩
  · have hoperand : (BitVec.ofNat 8 n).toNat = n := by rw [BitVec.toNat_ofNat]; omega
    obtain ⟨t, ht, -, hread⟩ := exec_setch_decChan hidle (a := BitVec.ofNat 8 n) (channelDefined_iff.mpr (by omega))
    exact ⟨t, ht, hread.trans (congrArg some hoperand)⟩

end Sys2Proof.Machine
end

section
/-! The setters as one family of maps on frames: each overwrites the bits of its field and no others, and the fields are
disjoint (20_memory.md R35, 41_frame_encoder.md R91). -/

namespace Sys2Proof.Machine

/-! ### Ownership by field -/

/-- Of a byte that two fields may share, the bits of field `f`: `a` where it is `owner₁`, `b` where it is `owner₂`. -/
def sharedBits (owner₁ : Nat) (a : Byte) (owner₂ : Nat) (b : Byte) (f : Nat) : Byte :=
  if f = owner₁ then a else if f = owner₂ then b else 0

/-- Two fields have no bit of such a byte in common when `a` and `b` have none. -/
theorem sharedBits_disjoint {owner₁ owner₂ f g : Nat} {a b : Byte} (hab : a &&& b = 0) (hfg : f ≠ g) :
    sharedBits owner₁ a owner₂ b f &&& sharedBits owner₁ a owner₂ b g = 0 := by
  have hba : b &&& a = 0 := (BitVec.and_comm b a).trans hab
  unfold sharedBits
  split_ifs <;> simp_all

/-- The owner column of 20_memory.md R35 read by byte: the bits of byte `j` that the setter of field `f` owns. -/
def fieldBits (p : Params) (f : Nat) (j : Fin 12) : Byte :=
  match j with
  | 4 => sharedBits 0 0xF0 0 0 f
  | 5 => sharedBits 1 0xFF 1 0 f
  | 6 => sharedBits 2 0xF0 4 (p.lowbatBits.setWidth 8) f
  | 7 => sharedBits 2 0xFF 2 0 f
  | 8 => sharedBits 3 0xF0 2 0x0F f
  | 9 => sharedBits 3 0x0F 3 0 f
  | _ => 0

theorem ownedBits_eq_fieldBits (p : Params) {i : Instr} {f : Nat} (h : setterField i = some f) (j : Fin 12) :
    ownedBits p i j = fieldBits p f j := by
  cases i with
  | nsum | crc8 | final | tx => cases h
  | setch | setid | settemp | sethum | setbat => cases h; fin_cases j <;> rfl

theorem fieldBits_disjoint (p : Params) {f g : Nat} (h : f ≠ g) (j : Fin 12) :
    fieldBits p f j &&& fieldBits p g j = 0 := by
  have flagBelowTenths : ∀ own : Nibble, 0xF0#8 &&& own.setWidth 8 = 0 := by decide
  match j with
  | 4 | 5 | 7 | 8 | 9 => exact sharedBits_disjoint (by decide) h
  | 6 => exact sharedBits_disjoint (flagBelowTenths p.lowbatBits) h
  | 0 | 1 | 2 | 3 | 10 | 11 => exact BitVec.and_zero

/-- The setters of one field own the same bits. -/
theorem ownedBits_congr (p : Params) {i k : Instr} (hi : (setterField i).isSome) (h : setterField k = setterField i)
    (j : Fin 12) : ownedBits p k j = ownedBits p i j := by
  obtain ⟨f, hf⟩ := Option.isSome_iff_exists.mp hi
  rw [ownedBits_eq_fieldBits p hf, ownedBits_eq_fieldBits p (h.trans hf)]

/-- Setters of different fields own disjoint bits. -/
theorem ownedBits_disjoint (p : Params) {i k : Instr} (hi : (setterField i).isSome) (hk : (setterField k).isSome)
    (h : setterField i ≠ setterField k) (j : Fin 12) : ownedBits p i j &&& ownedBits p k j = 0 := by
  obtain ⟨f, hf⟩ := Option.isSome_iff_exists.mp hi
  obtain ⟨g, hg⟩ := Option.isSome_iff_exists.mp hk
  rw [ownedBits_eq_fieldBits p hf, ownedBits_eq_fieldBits p hg]
  exact fieldBits_disjoint p (fun heq => h (by rw [hf, hg, heq])) j

/-! ### What a setter writes -/

/-- What a setter puts into the bits it owns (41_frame_encoder.md R81 to R85). -/
def setterBits (p : Params) (i : Instr) (j : Fin 12) : Byte :=
  match i, j with
  | .setch a, 4 => nibbles (channelCode a) 0
  | .setid a, 5 => a
  | .settemp sm, 6 => nibbles (decimalDigit 0 (tempMagnitude sm)) 0
  | .settemp sm, 7 => nibbles (decimalDigit 2 (tempMagnitude sm)) (decimalDigit 1 (tempMagnitude sm))
  | .settemp sm, 8 => nibbles 0 (signNibble p (tempSign sm) ||| hundredsField (tempMagnitude sm))
  | .sethum a, 8 => nibbles (decimalDigit 0 a.toNat) 0
  | .sethum a, 9 => nibbles 0 (decimalDigit 1 a.toNat)
  | .setbat a, 6 => if a.getLsbD 0 then p.lowbatBits.setWidth 8 else 0
  | _, _ => 0

/-- A setter as a map on frames. -/
def setterFrame (p : Params) (F : Frame) (i : Instr) : Frame := fun j =>
  (F j &&& ~~~(ownedBits p i j)) ||| setterBits p i j

/-- A setter writes no bit it does not own. -/
theorem setterBits_within (p : Params) (i : Instr) (j : Fin 12) : setterBits p i j &&& ~~~(ownedBits p i j) = 0 := by
  match j with
  | 4 => cases i with
    | setch a => exact nibbles_within_high _
    | _ => exact BitVec.zero_and
  | 5 => cases i with
    | setid a => exact byte_within_full a
    | _ => exact BitVec.zero_and
  | 6 => cases i with
    | settemp sm => exact nibbles_within_high _
    | setbat a => exact flag_within_own _ _
    | _ => exact BitVec.zero_and
  | 7 => cases i with
    | settemp sm => exact byte_within_full _
    | _ => exact BitVec.zero_and
  | 8 => cases i with
    | settemp sm => exact nibbles_within_low _
    | sethum a => exact nibbles_within_high _
    | _ => exact BitVec.zero_and
  | 9 => cases i with
    | sethum a => exact nibbles_within_low _
    | _ => exact BitVec.zero_and
  | 0 | 1 | 2 | 3 | 10 | 11 => cases i <;> exact BitVec.zero_and

/-- A setter keeps a byte in which it owns nothing. -/
theorem setterFrame_of_unowned {p : Params} (F : Frame) {i : Instr} {j : Fin 12} (h : ownedBits p i j = 0#8) :
    F j = setterFrame p F i j := by
  have hbits : setterBits p i j = 0#8 := by
    simpa only [h, BitVec.not_zero, BitVec.and_allOnes, BitVec.ofNat_eq_ofNat] using setterBits_within p i j
  rw [setterFrame, h, hbits, BitVec.not_zero, BitVec.and_allOnes, BitVec.or_zero]

/-- A setter's effect on a byte, its bits and its value given. -/
theorem setterFrame_of_owned {p : Params} (F : Frame) {i : Instr} {j : Fin 12} {own v : Byte}
    (hown : ownedBits p i j = own) (hv : setterBits p i j = v) : (F j &&& ~~~own) ||| v = setterFrame p F i j := by
  rw [setterFrame, hown, hv]

/-- Bit by bit, a setter's frame holds the setter's bit where it owns one, and the old bit elsewhere. -/
theorem setterFrame_getLsbD (p : Params) (F : Frame) (i : Instr) (j : Fin 12) (k : Nat) :
    (setterFrame p F i j).getLsbD k =
      if (ownedBits p i j).getLsbD k then (setterBits p i j).getLsbD k else (F j).getLsbD k := by
  have hwithin := congrArg (BitVec.getLsbD · k) (setterBits_within p i j)
  by_cases hk : k < 8
  · simp only [BitVec.getLsbD_and, BitVec.getLsbD_not, hk, decide_true, Bool.true_and, BitVec.ofNat_eq_ofNat,
      BitVec.getLsbD_zero] at hwithin
    simp only [setterFrame, BitVec.getLsbD_or, BitVec.getLsbD_and, BitVec.getLsbD_not, hk, decide_true, Bool.true_and]
    revert hwithin
    cases (ownedBits p i j).getLsbD k <;> simp +contextual
  · simp [BitVec.getLsbD_of_ge _ k (not_lt.mp hk)]

/-- A setter given twice writes what stands there. -/
theorem setterFrame_idem (p : Params) (F : Frame) (i : Instr) :
    setterFrame p (setterFrame p F i) i = setterFrame p F i := by
  funext j
  apply BitVec.eq_of_getLsbD_eq
  intro k _
  rw [setterFrame_getLsbD]
  split
  next hown => rw [setterFrame_getLsbD, if_pos hown]
  next => rfl

/-! ### The commands -/

theorem ChangesOnlyFrame.busy_eq {s t : State} (h : ChangesOnlyFrame s t) : t.busy = s.busy := by
  rw [h]

theorem exec_eq_setterCommand {i : Instr} (hi : (setterField i).isSome) (s : State) :
    exec i s = setterCommand Config.params i s := by
  cases i with
  | nsum | crc8 | final | tx => cases hi
  | _ => rfl

theorem setterCommand_busy (p : Params) (i : Instr) {s : State} (h : s.busy = true) :
    setterCommand p i s = .next s := by
  cases i with
  | nsum | crc8 | final | tx => rfl
  | _ => exact accept_busy h

/-- A byte owned whole is replaced. -/
theorem byte_rewritten (b v : Byte) : (b &&& ~~~0xFF#8) ||| v = v := by simp

/-- On an idle block a setter with defined operands completes as its map on frames. -/
theorem setterCommand_idle (p : Params) {i : Instr} {s : State} (h : s.busy = false) (hi : (setterField i).isSome)
    (hwf : i.wellFormed = true) :
    ∃ t, setterCommand p i s = .next t ∧ t.frame p = setterFrame p (s.frame p) i ∧ ChangesOnlyFrame s t := by
  cases i with
  | nsum | crc8 | final | tx => cases hi
  | setch a =>
    refine ⟨_, (accept_idle h).trans (if_pos hwf), funext fun j => (setChannel_frame p a s j).trans ?_,
      changesOnlyFrame_rmw ..⟩
    match j with
    | 4 => exact setterFrame_of_owned (own := 0xF0) _ rfl rfl
    | 0 | 1 | 2 | 3 | 5 | 6 | 7 | 8 | 9 | 10 | 11 => exact setterFrame_of_unowned _ rfl
  | setid a =>
    refine ⟨_, accept_idle h, funext fun j => (setRollingId_frame p a s j).trans ?_, changesOnlyFrame_rmw ..⟩
    match j with
    | 5 => exact (byte_rewritten _ _).symm.trans (setterFrame_of_owned _ rfl rfl)
    | 0 | 1 | 2 | 3 | 4 | 6 | 7 | 8 | 9 | 10 | 11 => exact setterFrame_of_unowned _ rfl
  | settemp sm =>
    refine ⟨_, accept_idle h, funext fun j => (writeTemperature_frame p sm s j).trans ?_,
      changesOnlyFrame_writeTemperature ..⟩
    match j with
    | 6 => exact setterFrame_of_owned (own := 0xF0) _ rfl rfl
    | 8 => exact setterFrame_of_owned (own := 0x0F) _ rfl rfl
    | 7 => exact (byte_rewritten _ _).symm.trans (setterFrame_of_owned _ rfl rfl)
    | 0 | 1 | 2 | 3 | 4 | 5 | 9 | 10 | 11 => exact setterFrame_of_unowned _ rfl
  | sethum a =>
    refine ⟨_, accept_idle h, funext fun j => (writeHumidity_frame p a s j).trans ?_,
      changesOnlyFrame_writeHumidity ..⟩
    match j with
    | 8 => exact setterFrame_of_owned (own := 0xF0) _ rfl rfl
    | 9 => exact setterFrame_of_owned (own := 0x0F) _ rfl rfl
    | 0 | 1 | 2 | 3 | 4 | 5 | 6 | 7 | 10 | 11 => exact setterFrame_of_unowned _ rfl
  | setbat a =>
    refine ⟨_, (accept_idle h).trans (if_pos hwf), funext fun j => (congrFun (rmw_frame ..) j).trans ?_,
      changesOnlyFrame_rmw ..⟩
    match j with
    | 6 => exact setterFrame_of_owned _ rfl rfl
    | 0 | 1 | 2 | 3 | 4 | 5 | 7 | 8 | 9 | 10 | 11 => exact setterFrame_of_unowned _ rfl

/-- A setter that answers a next state is not taken, or its operands are defined. -/
theorem setterCommand_next (p : Params) {i : Instr} {s t : State} (hi : (setterField i).isSome)
    (h : setterCommand p i s = .next t) : s.busy = true ∨ (s.busy = false ∧ i.wellFormed = true) := by
  cases i with
  | nsum | crc8 | final | tx => cases hi
  | setid | settemp | sethum =>
    obtain ⟨hbusy, -⟩ | ⟨hidle, -⟩ := accept_next h
    · exact .inl hbusy
    · exact .inr ⟨hidle, rfl⟩
  | setch | setbat =>
    obtain ⟨hbusy, -⟩ | ⟨hidle, heffect⟩ := accept_next h
    · exact .inl hbusy
    · split at heffect
      next hdefined => exact .inr ⟨hidle, hdefined⟩
      next => cases heffect

/-- A setter given again completes and changes nothing. -/
theorem setterCommand_again (p : Params) {i : Instr} {s t : State} (hi : (setterField i).isSome)
    (h : setterCommand p i s = .next t) : ∃ u, setterCommand p i t = .next u ∧ u.frame p = t.frame p := by
  obtain hbusy | ⟨hidle, hwf⟩ := setterCommand_next p hi h
  · obtain rfl : s = t := by simpa [setterCommand_busy p i hbusy] using h
    exact ⟨s, h, rfl⟩
  · obtain ⟨t', ht', hframe, honly⟩ := setterCommand_idle p hidle hi hwf
    obtain rfl : t' = t := by simpa [ht'] using h
    obtain ⟨u, hu, huframe, -⟩ := setterCommand_idle p (honly.busy_eq.trans hidle) hi hwf
    exact ⟨u, hu, by rw [huframe, hframe, setterFrame_idem]⟩

/-- A sequence of setters on an idle block is the sequence of their maps on frames. -/
theorem issueAll_setters {is : List Instr} (his : ∀ i ∈ is, (setterField i).isSome ∧ i.wellFormed = true) {s : State}
    (hidle : s.busy = false) :
    ∃ t, issueAll is s = .next t ∧ t.bytes = is.foldl (setterFrame Config.params) s.bytes ∧ ChangesOnlyFrame s t := by
  induction is generalizing s with
  | nil => exact ⟨s, rfl, rfl, rfl⟩
  | cons i is ih =>
    obtain ⟨⟨hi, hwf⟩, hrest⟩ := List.forall_mem_cons.mp his
    obtain ⟨t, ht, hframe, honly⟩ := setterCommand_idle Config.params hidle hi hwf
    obtain ⟨u, hu, hframes, honly'⟩ := ih hrest (honly.busy_eq.trans hidle)
    refine ⟨u, (issueAll_cons ((exec_eq_setterCommand hi s).trans ht)).trans hu, ?_, honly.trans honly'⟩
    rw [hframes, List.foldl_cons, State.bytes, hframe]
    rfl

/-! ### The last setter of each field -/

/-- After a sequence of setters each bit holds what the last setter that owns it wrote, or what it held before. -/
theorem foldl_setterFrame_getLsbD (p : Params) (is : List Instr) (F : Frame) (j : Fin 12) (k : Nat) :
    (is.foldl (setterFrame p) F j).getLsbD k =
      ((is.filter fun i => (ownedBits p i j).getLsbD k).getLast?.map fun i => (setterBits p i j).getLsbD k).getD
        ((F j).getLsbD k) := by
  induction is using List.reverseRecOn with
  | nil => rfl
  | append_singleton is i ih =>
    rw [List.foldl_concat, setterFrame_getLsbD, List.filter_append, List.filter_singleton]
    split
    next hown => simp [hown]
    next hown => simpa [hown] using ih

/-- A bit that one setter owns is owned by the setters of its field and by no others. -/
theorem getLsbD_ownedBits_eq (p : Params) {i k : Instr} (hi : (setterField i).isSome) (hk : (setterField k).isSome)
    {j : Fin 12} {n : Nat} (hown : (ownedBits p k j).getLsbD n = true) :
    (ownedBits p i j).getLsbD n = (setterField i == setterField k) := by
  by_cases h : setterField i = setterField k
  · rw [ownedBits_congr p hk h, hown, h, beq_self_eq_true]
  · have hdisjoint := congrArg (BitVec.getLsbD · n) (ownedBits_disjoint p hi hk h j)
    simpa [hown, beq_eq_false_iff_ne.mpr h] using hdisjoint

/-- Sequences that give each field the same last setter give each bit the same last owner. -/
theorem getLast?_filter_ownedBits_eq (p : Params) {is js : List Instr}
    (hsetter : ∀ i ∈ is ++ js, (setterField i).isSome)
    (hlast : ∀ f, (is.filter fun i => setterField i == some f).getLast?
      = (js.filter fun i => setterField i == some f).getLast?) (j : Fin 12) (n : Nat) :
    (is.filter fun i => (ownedBits p i j).getLsbD n).getLast?
      = (js.filter fun i => (ownedBits p i j).getLsbD n).getLast? := by
  obtain ⟨his, hjs⟩ := List.forall_mem_append.mp hsetter
  by_cases howner : ∃ k ∈ is ++ js, (ownedBits p k j).getLsbD n = true
  · obtain ⟨k, hk, hown⟩ := howner
    obtain ⟨f, hf⟩ := Option.isSome_iff_exists.mp (hsetter k hk)
    have hfield : ∀ i, (setterField i).isSome → (ownedBits p i j).getLsbD n = (setterField i == some f) := fun i hi =>
      hf ▸ getLsbD_ownedBits_eq p hi (hsetter k hk) hown
    rw [List.filter_congr fun i hi => hfield i (his i hi), List.filter_congr fun i hi => hfield i (hjs i hi), hlast f]
  · have hnone : ∀ i ∈ is ++ js, ¬ (ownedBits p i j).getLsbD n = true := fun i hi hown => howner ⟨i, hi, hown⟩
    obtain ⟨hnoneIs, hnoneJs⟩ := List.forall_mem_append.mp hnone
    rw [List.filter_eq_nil_iff.mpr hnoneIs, List.filter_eq_nil_iff.mpr hnoneJs]

/-- Settles O29: each bit of the frame has at most one field, whose last setter wrote it. -/
theorem frameDependsOnLastSetterOfEachField : Obligations.FrameDependsOnLastSetterOfEachField := by
  refine ⟨fun i k j hi hk hfield => ownedBits_disjoint _ hi hk hfield j, fun s is js hidle hsetter hlast => ?_⟩
  obtain ⟨his, hjs⟩ := List.forall_mem_append.mp hsetter
  obtain ⟨t, ht, htframe, htonly⟩ := issueAll_setters his hidle
  obtain ⟨u, hu, huframe, huonly⟩ := issueAll_setters hjs hidle
  refine ⟨t, u, ht, hu, ?_, htonly, huonly⟩
  funext j
  apply BitVec.eq_of_getLsbD_eq
  intro n _
  rw [htframe, huframe, foldl_setterFrame_getLsbD, foldl_setterFrame_getLsbD,
    getLast?_filter_ownedBits_eq _ (fun i hi => (hsetter i hi).1) hlast]

end Sys2Proof.Machine
end

section
/-! `FINAL` (41_frame_encoder.md R86, R87): where the masks stay clear of the bytes it writes, the digests it writes are
those of the frame it leaves. -/

namespace Sys2Proof.Machine

/-- A mask with no bit from byte `j` on does not see a write to byte `j`. -/
theorem agreeOn_update {mask : BitVec 64} {j : Fin 12} (h : ∀ i, 2 * j.val ≤ i → mask.getLsbD i = false) (F : Frame)
    (b : Byte) : AgreeOn mask (Function.update F j b) F := by
  intro i hselected
  have hbyte : (⟨i.val / 2, by omega⟩ : Fin 12) ≠ j := by
    rintro rfl
    simp [h i.val (by dsimp only; omega)] at hselected
  rw [nib, Function.update_of_ne hbyte, nib]

/-- What both halves of `FINAL` do to the frame, byte by byte. -/
theorem finalize_frame (p : Params) (s : State) (j : Fin 12) :
    (writeCrc p (writeChecksum p s)).frame p j =
      if j = 11 then crc8 ((writeChecksum p s).frame p) p.crcMask p.crcInit
      else if j = 10 then nsum (s.frame p) p.sumMask else s.frame p j := by
  rw [writeCrc_frame, Function.update_apply]
  split
  · rfl
  · rw [writeChecksum_frame, Function.update_apply]

/-- `FINAL` leaves the frame finalized. -/
theorem finalized_writeCrc_writeChecksum (p : Params) (s : State)
    (hsum : ∀ i, 20 ≤ i → p.sumMask.getLsbD i = false) (hcrc : ∀ i, 22 ≤ i → p.crcMask.getLsbD i = false) :
    Finalized p ((writeCrc p (writeChecksum p s)).frame p) := by
  have hsumAfterCrc : nsum ((writeCrc p (writeChecksum p s)).frame p) p.sumMask
      = nsum ((writeChecksum p s).frame p) p.sumMask := by
    rw [writeCrc_frame]
    exact nsum_congr (agreeOn_update (j := 11) (fun i hi => hsum i (le_trans (by decide) hi)) _ _)
  have hsumAfterSum : nsum ((writeChecksum p s).frame p) p.sumMask = nsum (s.frame p) p.sumMask := by
    rw [writeChecksum_frame]
    exact nsum_congr (agreeOn_update (j := 10) hsum _ _)
  have hcrcAfterCrc : crc8 ((writeCrc p (writeChecksum p s)).frame p) p.crcMask p.crcInit
      = crc8 ((writeChecksum p s).frame p) p.crcMask p.crcInit := by
    rw [writeCrc_frame]
    exact crc8_congr _ (agreeOn_update (j := 11) hcrc _ _)
  rw [Finalized, hsumAfterCrc, hsumAfterSum, hcrcAfterCrc]
  exact ⟨finalize_frame p s 10, finalize_frame p s 11⟩

/-- `FINAL` writes into a finalized frame what stands there. -/
theorem frame_writeCrc_writeChecksum_of_finalized {p : Params} {s : State} (h : Finalized p (s.frame p)) :
    (writeCrc p (writeChecksum p s)).frame p = s.frame p := by
  obtain ⟨hsum, hcrc⟩ := h
  have hchecksum : (writeChecksum p s).frame p = s.frame p := by
    rw [writeChecksum_frame, ← hsum, Function.update_eq_self]
  rw [writeCrc_frame, hchecksum, ← hcrc, Function.update_eq_self]

/-- Settles O31: the two writes one after the other; the second `FINAL` meets a finalized frame. -/
theorem finalWritesChecksumThenCrc : Obligations.FinalWritesChecksumThenCrc := by
  refine ⟨fun s hidle => ⟨_, exec_final_idle hidle, finalize_frame _ s 10, ?_, fun j h10 h11 => ?_, rfl⟩,
    fun p s hidle hsum hcrc => ⟨_, _, accept_idle hidle, accept_idle hidle, ?_⟩⟩
  · have hchecksum : (writeChecksum Config.params s).frame Config.params =
        fun j => if j = 10 then nsum s.bytes Config.params.sumMask else s.bytes j := by
      funext j
      rw [writeChecksum_frame, Function.update_apply]
      rfl
    exact hchecksum ▸ finalize_frame Config.params s 11
  · exact (finalize_frame Config.params s j).trans ((if_neg h11).trans (if_neg h10))
  · exact frame_writeCrc_writeChecksum_of_finalized (finalized_writeCrc_writeChecksum p s hsum hcrc)

/-- Settles O32: `FINAL` leaves the frame finalized, which is a property of the frame alone, and a setter given again
changes nothing of it. -/
theorem finalizedAfterFinal : Obligations.FinalizedAfterFinal := by
  refine ⟨fun p s hidle hsum hcrc => ⟨_, accept_idle hidle, finalized_writeCrc_writeChecksum p s hsum hcrc⟩,
    fun _ => rfl, fun i s hi => exec_eq_setterCommand hi s, fun p i s t hi hset => ⟨fun hkept h => ?_, ?_⟩⟩
  · rwa [hkept]
  · obtain ⟨u, hu, hkept⟩ := setterCommand_again p hi hset
    exact ⟨u, hu, hkept, fun h => by rwa [hkept]⟩

end Sys2Proof.Machine
end

section
/-! One report (41_frame_encoder.md R89): each reading is put there by its setter and stays, because the commands after
it own other bits. -/

namespace Sys2Proof.Machine

/-! ### Readings of a field -/

/-- What is read of a frame depends on the bits `own` alone. -/
def ReadsOnly {α : Type} (own : Fin 12 → Byte) (read : Frame → α) : Prop :=
  ∀ F G : Frame, (∀ j, F j &&& own j = G j &&& own j) → read F = read G

/-- Equal owned bits of two bytes are equal fields, where the field is owned whole. -/
theorem extractLsb'_eq_of_owned {a b own : Byte} (h : a &&& own = b &&& own) {start len : Nat}
    (hown : own.extractLsb' start len = BitVec.allOnes len) : a.extractLsb' start len = b.extractLsb' start len := by
  simpa only [BitVec.extractLsb'_and, hown, BitVec.and_allOnes] using congrArg (BitVec.extractLsb' start len) h

section
variable (p : Params)

theorem readsOnly_rollingId (a : Byte) : ReadsOnly (ownedBits p (.setid a)) fun F => F 5 := by
  intro F G h
  have hbyte : F 5 &&& 0xFF#8 = G 5 &&& 0xFF#8 := h 5
  exact (BitVec.and_allOnes.symm.trans hbyte).trans BitVec.and_allOnes

theorem readsOnly_decChan (a : Byte) : ReadsOnly (ownedBits p (.setch a)) decChan := by
  intro F G h
  have hcode : (F 4).extractLsb' 4 4 = (G 4).extractLsb' 4 4 := extractLsb'_eq_of_owned (own := 0xF0) (h 4) rfl
  rw [decChan, hcode, decChan]

theorem readsOnly_decTemp (sm : BitVec 16) : ReadsOnly (ownedBits p (.settemp sm)) decTemp := by
  intro F G h
  have htenths : (F 6).extractLsb' 4 4 = (G 6).extractLsb' 4 4 := extractLsb'_eq_of_owned (own := 0xF0) (h 6) rfl
  have hones : (F 7).extractLsb' 0 4 = (G 7).extractLsb' 0 4 := extractLsb'_eq_of_owned (own := 0xFF) (h 7) rfl
  have htens : (F 7).extractLsb' 4 4 = (G 7).extractLsb' 4 4 := extractLsb'_eq_of_owned (own := 0xFF) (h 7) rfl
  have hhundreds : (F 8).extractLsb' 0 2 = (G 8).extractLsb' 0 2 := extractLsb'_eq_of_owned (own := 0x0F) (h 8) rfl
  have hsign : (F 8).extractLsb' 2 2 = (G 8).extractLsb' 2 2 := extractLsb'_eq_of_owned (own := 0x0F) (h 8) rfl
  rw [decTemp, htenths, hones, htens, hhundreds, hsign, decTemp]

theorem readsOnly_decHum (a : Byte) : ReadsOnly (ownedBits p (.sethum a)) decHum := by
  intro F G h
  have hones : (F 8).extractLsb' 4 4 = (G 8).extractLsb' 4 4 := extractLsb'_eq_of_owned (own := 0xF0) (h 8) rfl
  have htens : (F 9).extractLsb' 0 4 = (G 9).extractLsb' 0 4 := extractLsb'_eq_of_owned (own := 0x0F) (h 9) rfl
  rw [decHum, hones, htens, decHum]

theorem readsOnly_flag (a : Byte) :
    ReadsOnly (ownedBits p (.setbat a)) fun F => (F 6).extractLsb' 0 4 &&& p.lowbatBits := by
  intro F G h
  have hown : (p.lowbatBits.setWidth 8).extractLsb' 0 4 = p.lowbatBits := by
    generalize p.lowbatBits = own
    revert own
    decide
  have hbyte : F 6 &&& p.lowbatBits.setWidth 8 = G 6 &&& p.lowbatBits.setWidth 8 := h 6
  simpa only [BitVec.extractLsb'_and, hown] using congrArg (BitVec.extractLsb' 0 4) hbyte

end

/-! ### Commands that keep a reading -/

/-- A command that is no setter owns none of a setter's bits: `FINAL` owns the bytes of the digests, the others
nothing. -/
theorem ownedBits_disjoint_of_no_setter (p : Params) {i k : Instr} (hi : (setterField i).isSome)
    (hk : setterField k = none) (j : Fin 12) : ownedBits p i j &&& ownedBits p k j = 0 := by
  cases k with
  | setch | setid | settemp | sethum | setbat => cases hk
  | nsum | crc8 | tx => exact BitVec.and_zero
  | final =>
    match j with
    | 10 | 11 =>
      cases i with
      | final => cases hi
      | _ => exact BitVec.zero_and
    | 0 | 1 | 2 | 3 | 4 | 5 | 6 | 7 | 8 | 9 => exact BitVec.and_zero

/-- Bits that a mask does not meet are kept by its complement. -/
theorem not_and_of_disjoint {a b : Byte} (h : a &&& b = 0) : ~~~b &&& a = a := by
  ext k hk
  have hbit := congrArg (BitVec.getLsbD · k) h
  revert hbit
  cases b[k] <;> simp [hk]

/-- A command other than the field's setter keeps what is read of the field. -/
theorem exec_keeps_reading {α : Type} {read : Frame → α} {i k : Instr} (hi : (setterField i).isSome)
    (hread : ReadsOnly (ownedBits Config.params i) read) (hk : setterField i ≠ setterField k) {s t : State}
    (h : exec k s = .next t) : read t.bytes = read s.bytes := by
  refine hread _ _ fun j => ?_
  have hdisjoint : ownedBits Config.params i j &&& ownedBits Config.params k j = 0 := by
    cases hsetter : setterField k with
    | none => exact ownedBits_disjoint_of_no_setter _ hi hsetter j
    | some f => exact ownedBits_disjoint _ hi (by simp [hsetter]) hk j
  have houtside := not_and_of_disjoint hdisjoint
  rw [← houtside, ← BitVec.and_assoc, ← BitVec.and_assoc, commandsKeepBitsTheyDoNotOwn k s t j h]

/-- A sequence that completes has completed its first command. -/
theorem issueAll_cons_next {i : Instr} {is : List Instr} {s t : State} (h : issueAll (i :: is) s = .next t) :
    ∃ u, exec i s = .next u ∧ issueAll is u = .next t := by
  rw [issueAll] at h
  split at h
  next u hu => exact ⟨u, hu, h⟩
  next => cases h
  next => cases h

/-- A sequence of commands without the field's setter keeps what is read of the field. -/
theorem issueAll_keeps_reading {α : Type} {read : Frame → α} {i : Instr} (hi : (setterField i).isSome)
    (hread : ReadsOnly (ownedBits Config.params i) read) {ks : List Instr}
    (hks : ∀ k ∈ ks, setterField i ≠ setterField k) {s t : State} (h : issueAll ks s = .next t) :
    read t.bytes = read s.bytes := by
  induction ks generalizing s with
  | nil => cases h; rfl
  | cons k ks ih =>
    obtain ⟨hk, hrest⟩ := List.forall_mem_cons.mp hks
    obtain ⟨u, hu, htail⟩ := issueAll_cons_next h
    exact (ih hrest htail).trans (exec_keeps_reading hi hread hk hu)

/-! ### The report -/

/-- The six commands of a report whose numbers have operands (30_encoding.md R62). -/
theorem encodeReport_eq_some (id ch : Byte) {t h : HostNumber} (low : Bool) {sm : BitVec 16} {a : Byte}
    (ht : settempf t = some (.settemp sm)) (hh : sethumf h = some (.sethum a)) :
    encodeReport id ch t h low =
      some [.setid id, .setch ch, .settemp sm, .sethum a, .setbat (if low then 1 else 0), .final] := by
  simp only [encodeReport, ht, hh]

/-- The commands of a report complete one after the other, and each field holds its command's operand. -/
theorem issueAll_report {s : State} (hidle : s.busy = false) (id : Byte) {ch bat : Byte} (sm : BitVec 16) (a : Byte)
    (hch : channelDefined ch = true) (hbat : batteryDefined bat = true) :
    ∃ u, issueAll [.setid id, .setch ch, .settemp sm, .sethum a, .setbat bat, .final] s = .next u ∧
      u.bytes 5 = id ∧ decChan u.bytes = some ch.toNat ∧
      decTemp u.bytes = (tempSign sm, tempMagnitude sm % 4000) ∧ decHum u.bytes = a.toNat % 100 ∧
      (u.bytes 6).extractLsb' 0 4 &&& Config.params.lowbatBits
        = if bat.toNat = 1 then Config.params.lowbatBits else 0 := by
  obtain ⟨s₁, hsetid, hid, honly₁⟩ := setidStoresOperand.2 s id hidle
  obtain ⟨s₂, hsetch, hidle₂, hchannel⟩ := exec_setch_decChan (honly₁.busy_eq.trans hidle) hch
  obtain ⟨s₃, hsettemp, hidle₃, htemperature⟩ := exec_settemp_decTemp hidle₂ sm
  obtain ⟨s₄, hsethum, hidle₄, hhumidity⟩ := exec_sethum_decHum hidle₃ a
  obtain ⟨s₅, hsetbat, hflag, -, -, -, honly₅⟩ := exec_setbat_flag hidle₄ hbat
  have h₅ := issueAll_cons (is := []) (exec_final_idle (honly₅.busy_eq.trans hidle₄))
  have h₄ := (issueAll_cons hsetbat).trans h₅
  have h₃ := (issueAll_cons hsethum).trans h₄
  have h₂ := (issueAll_cons hsettemp).trans h₃
  have h₁ := (issueAll_cons hsetch).trans h₂
  refine ⟨_, (issueAll_cons hsetid).trans h₁, ?_, ?_, ?_, ?_, ?_⟩
  · exact (issueAll_keeps_reading rfl (readsOnly_rollingId _ id) (by simp [setterField]) h₁).trans (hid 5)
  · exact (issueAll_keeps_reading rfl (readsOnly_decChan _ ch) (by simp [setterField]) h₂).trans hchannel
  · exact (issueAll_keeps_reading rfl (readsOnly_decTemp _ sm) (by simp [setterField]) h₃).trans htemperature
  · exact (issueAll_keeps_reading rfl (readsOnly_decHum _ a) (by simp [setterField]) h₄).trans hhumidity
  · exact (issueAll_keeps_reading rfl (readsOnly_flag _ bat) (by simp [setterField]) h₅).trans hflag

/-- Settles O37: the numbers have operands, and the digits of each can be read back whole. -/
theorem encodedReportHoldsTheReading : Obligations.EncodedReportHoldsTheReading := by
  intro s id ch t h low hidle hlo hhi htemp hnonneg hhum
  have htenths : ⌊|t| * 10⌋.toNat < 4000 := by
    rw [Int.floor_toNat, Nat.floor_lt (by positivity)]
    push_cast
    linarith
  have hpercent : ⌊h + 1 / 2⌋.toNat < 100 := by
    rw [Int.floor_toNat, Nat.floor_lt (by positivity)]
    push_cast
    linarith
  have hbattery : batteryDefined (if low then 1 else 0) = true := by cases low <;> rfl
  obtain ⟨u, hissue, hid, hchannel, htemperature, hhumidity, hflag⟩ := issueAll_report hidle id
    (BitVec.ofBool (decide (t < 0)) ++ BitVec.ofNat 15 ⌊|t| * 10⌋.toNat) (BitVec.ofNat 8 ⌊h + 1 / 2⌋.toNat)
    (channelDefined_iff.mpr ⟨hlo, hhi⟩) hbattery
  rw [tempSign_pack, tempMagnitude_pack_mod _ htenths] at htemperature
  rw [humidity_ofNat_mod hpercent] at hhumidity
  refine ⟨_, u, encodeReport_eq_some id ch low (settempf_of_lt (by linarith)) (sethumf_of_mem hnonneg (by linarith)),
    hissue, hid, hchannel, htemperature, hhumidity, hflag.trans ?_⟩
  cases low <;> rfl

end Sys2Proof.Machine
end

section
/-! The transmitter's steps (42_transmitter.md R108 to R110): `TX` borrows the timer, a tick emits one half-symbol, the
last tick gives the timer back. -/

namespace Sys2Proof.Machine

/-! ### The line code -/

/-- A half-symbol is the bit, complemented in the second half (42_transmitter.md R106). -/
theorem halfLevel_eq_xor (b secondHalf : Bool) : halfLevel b secondHalf = (b ^^ secondHalf) := by
  cases secondHalf <;> simp [halfLevel]

/-- The level of a tick by byte, bit and half (42_transmitter.md R107). -/
theorem levelAt_eq (F : Frame) (k : Fin 192) :
    levelAt F k = halfLevel ((F ⟨k.val / 16, by omega⟩).getLsbD (k.val % 16 / 2)) (k.val % 2 == 1) := by
  have hbyte : k.val / 2 / 8 = k.val / 16 := by omega
  have hbit : k.val / 2 % 8 = k.val % 16 / 2 := by omega
  simp only [levelAt, txBit, hbyte, hbit]

/-! ### A tick taken by a busy block -/

section
variable {s : State} {x : Input} {rest : List Input} (hin : s.inputs = x :: rest) (hreset : x.reset = false)
  (htick : x.tick = true) (hbusy : s.busy = true)
include hin hreset htick hbusy

theorem step_of_halfSymbolTick (k : Fin 192) (hpos : s.txpos.val = k.val) :
    step s = .next (emitHalfSymbol Config.params { s with inputs := rest } k) :=
  (step_of_tick hin hreset (by simp [hbusy, htick])).trans (congrArg _ (tick_emit k hbusy hpos))

theorem step_of_lastTick (hpos : s.txpos.val = 192) :
    step s = .next (endTransmission { s with inputs := rest }) :=
  (step_of_tick hin hreset (by simp [hbusy, htick])).trans (congrArg _ (tick_last hbusy hpos))

end

/-! ### The statements on one step -/

/-- Settles O38: the byte of `TX`, and acceptance by whether the block is busy. -/
theorem txBorrowsTheTimer : Obligations.TxBorrowsTheTimer :=
  ⟨rfl, fun _ => exec_busy .tx, fun _ => exec_tx_idle⟩

/-- Settles O39: a tick below position 192 emits the level of its position. -/
theorem tickEmitsOneHalfSymbol : Obligations.TickEmitsOneHalfSymbol := by
  intro s x rest k hk level hin hreset htick hbusy hpos hlevel
  have hlevelAt : level = levelAt s.bytes ⟨k, by omega⟩ := by
    rw [hlevel, levelAt_eq, halfLevel_eq_xor, beq_eq_decide]
  rw [step_of_halfSymbolTick hin hreset htick hbusy ⟨k, by omega⟩ hpos, hlevelAt]
  rfl

/-- Settles O40: a tick at position 192 ends the transmission. -/
theorem lastTickEndsTheTransmission : Obligations.LastTickEndsTheTransmission :=
  fun _ _ _ => step_of_lastTick

/-- Settles O46: without a reset only a tick can end a transmission, and one below position 192 does not. -/
theorem busyEndsOnlyByLastTickOrReset : Obligations.BusyEndsOnlyByLastTickOrReset := by
  intro s t hbusy hstep hidle
  cases hin : s.inputs with
  | nil =>
    rw [step_of_noInput hin] at hstep
    cases hstep
    simp [hbusy] at hidle
  | cons x rest =>
    refine ⟨x, rest, rfl, ?_⟩
    cases hreset : x.reset with
    | true => exact .inl rfl
    | false =>
      cases htick : x.tick with
      | false =>
        rw [step_of_busy_noTick hbusy hin hreset htick] at hstep
        cases hstep
        simp [hbusy] at hidle
      | true =>
        refine .inr ⟨rfl, ?_⟩
        by_contra hpos
        rw [step_of_halfSymbolTick hin hreset htick hbusy ⟨s.txpos.val, by omega⟩ rfl] at hstep
        cases hstep
        simp [hbusy] at hidle

end Sys2Proof.Machine
end

section
/-! The waveform of a frame as a list (42_transmitter.md R111, R116): one complementary pair per logical bit, sixteen
half-symbols per byte, then low. -/

namespace Sys2Proof.Machine

/-- The two half-symbols of a logical bit (42_transmitter.md R106). -/
def bitWave (b : Bool) : List Bool :=
  [b, !b]

/-- The sixteen half-symbols of a byte, least significant bit first (42_transmitter.md R107). -/
def byteWave (b : Byte) : List Bool :=
  List.ofFn fun i : Fin 16 => halfLevel (b.getLsbD (i.val / 2)) (i.val % 2 == 1)

/-! ### The levels of a bit and of a byte -/

theorem levelAt_first (F : Frame) (n : Fin 96) : levelAt F ⟨2 * n.val, by omega⟩ = txBit F n := by
  simp [levelAt, halfLevel]

theorem levelAt_second (F : Frame) (n : Fin 96) : levelAt F ⟨2 * n.val + 1, by omega⟩ = !txBit F n := by
  have hbit : (2 * n.val + 1) / 2 = n.val := by omega
  have hhalf : (2 * n.val + 1) % 2 = 1 := by omega
  simp [levelAt, halfLevel, hbit, hhalf]

theorem levelAt_byte (F : Frame) (j : Fin 12) (i : Fin 16) :
    levelAt F ⟨16 * j.val + i.val, by omega⟩ = halfLevel ((F j).getLsbD (i.val / 2)) (i.val % 2 == 1) := by
  have hbyte : (16 * j.val + i.val) / 16 = j.val := by omega
  have hbit : (16 * j.val + i.val) % 16 / 2 = i.val / 2 := by omega
  have hhalf : (16 * j.val + i.val) % 2 = i.val % 2 := by omega
  simp only [levelAt_eq, hbyte, hbit, hhalf]

theorem txBit_byte (F : Frame) (j : Fin 12) (n : Fin 8) :
    txBit F ⟨8 * j.val + n.val, by omega⟩ = (F j).getLsbD n.val := by
  have hbyte : (8 * j.val + n.val) / 8 = j.val := by omega
  have hbit : (8 * j.val + n.val) % 8 = n.val := by omega
  simp only [txBit, hbyte, hbit]

/-! ### The list -/

@[simp] theorem length_byteWave (b : Byte) : (byteWave b).length = 16 :=
  List.length_ofFn

@[simp] theorem length_waveOf (F : Frame) : (waveOf F).length = 193 := by
  simp [waveOf]

theorem getElem_waveOf (F : Frame) (k : Fin 192) : (waveOf F)[k.val]'(by simp; omega) = levelAt F k := by
  simp [waveOf]

theorem getElem_waveOf_last (F : Frame) : (waveOf F)[192]'(by simp) = false := by
  simp [waveOf]

/-- From tick `k` on: its level, then the levels after it. -/
theorem drop_waveOf (F : Frame) (k : Fin 192) :
    (waveOf F).drop k.val = levelAt F k :: (waveOf F).drop (k.val + 1) := by
  rw [List.drop_eq_getElem_cons (by simp; omega), getElem_waveOf]

theorem drop_waveOf_last (F : Frame) : (waveOf F).drop 192 = [false] := by
  rw [List.drop_eq_getElem_cons (by simp), getElem_waveOf_last, List.drop_of_length_le (by simp)]

/-- The half-symbols are the logical bits' pairs in order. -/
theorem take_waveOf (F : Frame) :
    (waveOf F).take 192 = (List.ofFn fun n : Fin 96 => bitWave (txBit F n)).flatten := by
  have hhalves : (waveOf F).take 192 = List.ofFn (levelAt F) := by
    rw [waveOf, List.take_left' (by simp), List.ofFn_eq_map]
  refine (hhalves.trans (List.ofFn_mul' (m := 2) (n := 96) (levelAt F))).trans ?_
  congr 2
  funext n
  simp only [List.ofFn_succ, List.ofFn_zero, Fin.val_zero, Fin.val_succ, Nat.add_zero, Nat.zero_add]
  rw [levelAt_first, levelAt_second]
  rfl

/-- Sixteen half-symbols from sixteen times `j` on are those of byte `j`. -/
theorem take_drop_waveOf (F : Frame) (j : Fin 12) : ((waveOf F).drop (16 * j.val)).take 16 = byteWave (F j) := by
  refine List.ext_getElem (by simp; omega) fun i _ hi => ?_
  rw [length_byteWave] at hi
  simp only [List.getElem_take, List.getElem_drop, byteWave, List.getElem_ofFn]
  exact (getElem_waveOf F ⟨16 * j.val + i, by omega⟩).trans (levelAt_byte F j ⟨i, hi⟩)

/-- Of the two half-symbols of a bit one is high and one low. -/
theorem count_bitWave (b level : Bool) : (bitWave b).count level = 1 := by
  cases b <;> cases level <;> rfl

theorem count_flatten_bitWave (level : Bool) {n : Nat} (bits : Fin n → Bool) :
    (List.ofFn fun i => bitWave (bits i)).flatten.count level = n := by
  simp [List.count_flatten, List.map_ofFn, Function.comp_def, count_bitWave]

/-! ### The wave as a function of the tick's number -/

/-- Entry `k` of the wave. -/
def waveLevel (F : Frame) (k : Fin 193) : Bool :=
  (waveOf F)[k.val]'(by simp)

theorem waveOf_eq_ofFn (F : Frame) : waveOf F = List.ofFn (waveLevel F) :=
  List.ext_getElem (by rw [length_waveOf, List.length_ofFn]) fun i _ _ => by rw [List.getElem_ofFn, waveLevel]

theorem waveLevel_first (F : Frame) (n : Fin 96) : waveLevel F ⟨2 * n.val, by omega⟩ = txBit F n :=
  (getElem_waveOf F ⟨2 * n.val, by omega⟩).trans (levelAt_first F n)

theorem waveLevel_second (F : Frame) (n : Fin 96) : waveLevel F ⟨2 * n.val + 1, by omega⟩ = !txBit F n :=
  (getElem_waveOf F ⟨2 * n.val + 1, by omega⟩).trans (levelAt_second F n)

/-- The two half-symbols of a bit are complementary. -/
theorem waveLevel_pair (F : Frame) (n : Fin 96) :
    waveLevel F ⟨2 * n.val + 1, by omega⟩ = !waveLevel F ⟨2 * n.val, by omega⟩ := by
  rw [waveLevel_second, waveLevel_first]

theorem waveLevel_succ_ne (F : Frame) {k : Nat} (hk : k < 192) (heven : k % 2 = 0) :
    waveLevel F ⟨k + 1, by omega⟩ ≠ waveLevel F ⟨k, by omega⟩ := by
  obtain ⟨n, rfl⟩ := Nat.dvd_of_mod_eq_zero heven
  simp [waveLevel_pair F ⟨n, by omega⟩]

/-- Of three half-symbols in a row two are the pair of one bit, so they are not all equal. -/
theorem waveLevel_not_three_equal (F : Frame) (k : Fin 190) :
    ¬ (waveLevel F ⟨k.val, by omega⟩ = waveLevel F ⟨k.val + 1, by omega⟩ ∧
      waveLevel F ⟨k.val + 1, by omega⟩ = waveLevel F ⟨k.val + 2, by omega⟩) := by
  rintro ⟨hleft, hright⟩
  obtain heven | hodd := Nat.mod_two_eq_zero_or_one k.val
  · exact waveLevel_succ_ne F (by omega) heven hleft.symm
  · exact waveLevel_succ_ne F (k := k.val + 1) (by omega) (by omega) hright.symm

/-- Settles O43: the wave is one complementary pair per logical bit, then low. -/
theorem waveIsSelfClockingAndRecoverable : Obligations.WaveIsSelfClockingAndRecoverable := by
  intro F
  refine ⟨waveLevel F, waveOf_eq_ofFn F, waveLevel_pair F, ?_, waveLevel_not_three_equal F, getElem_waveOf_last F, ?_⟩
  · simp only [take_waveOf, count_flatten_bitWave, and_self]
  · intro j n
    have hpos : 16 * j.val + 2 * n.val = 2 * (8 * j.val + n.val) := by omega
    simp only [hpos]
    rw [waveLevel_first F ⟨8 * j.val + n.val, by omega⟩, txBit_byte]

/-- A frame with its constant bytes starts with the preamble, the sync byte and the identifier
(42_transmitter.md R111). -/
theorem waveOf_constantBytes {p : Params} {F : Frame} (h : ConstantBits p F) :
    (waveOf F).take 32 = byteWave 0xFF ++ byteWave 0xFF ∧
    ((waveOf F).drop 32).take 16 = byteWave 0x1A ∧ ((waveOf F).drop 48).take 16 = byteWave 0x2D := by
  refine ⟨?_, h.sync ▸ take_drop_waveOf F 2, h.identifier ▸ take_drop_waveOf F 3⟩
  rw [List.take_add (i := 16) (j := 16)]
  exact congrArg₂ _ (h.preamble0 ▸ take_drop_waveOf F 0) (h.preamble1 ▸ take_drop_waveOf F 1)

end Sys2Proof.Machine
end

section
/-! A whole transmission (42_transmitter.md R111, R114): from whatever position, the ticks left append the rest of the
wave, by induction on the schedule of the inputs. -/

namespace Sys2Proof.Machine

/-! ### Schedules -/

/-- Inputs without a reset that hold this many ticks and end at the last of them. -/
inductive EndsAtTick : Nat → List Input → Prop
  | last {x : Input} (hreset : x.reset = false) (htick : x.tick = true) : EndsAtTick 1 [x]
  | tick {x : Input} {xs : List Input} {n : Nat} (hreset : x.reset = false) (htick : x.tick = true)
      (hrest : EndsAtTick n xs) : EndsAtTick (n + 1) (x :: xs)
  | wait {x : Input} {xs : List Input} {n : Nat} (hreset : x.reset = false) (htick : x.tick = false)
      (hrest : EndsAtTick n xs) : EndsAtTick n (x :: xs)

theorem EndsAtTick.pos {n : Nat} {xs : List Input} (h : EndsAtTick n xs) : 0 < n := by
  induction h with
  | last => exact Nat.one_pos
  | tick => exact Nat.succ_pos _
  | wait _ _ _ ih => exact ih

theorem endsAtTick_countP {xs : List Input} (hreset : ∀ x ∈ xs, x.reset = false)
    (hlast : xs.getLast?.map (·.tick) = some true) : EndsAtTick (xs.countP (·.tick)) xs := by
  induction xs with
  | nil => simp at hlast
  | cons x xs ih =>
    obtain ⟨hx, hxs⟩ := List.forall_mem_cons.mp hreset
    cases xs with
    | nil =>
      have htick : x.tick = true := by simpa using hlast
      simpa [htick] using EndsAtTick.last hx htick
    | cons y ys =>
      have hrest := ih hxs (by rwa [List.getLast?_cons_cons] at hlast)
      cases htick : x.tick with
      | true =>
        rw [List.countP_cons_of_pos htick]
        exact hrest.tick hx htick
      | false =>
        rw [List.countP_cons_of_neg (by simp [htick])]
        exact hrest.wait hx htick

theorem transmissionInputs.endsAtTick {xs : List Input} (h : transmissionInputs xs) : EndsAtTick 193 xs := by
  obtain ⟨hreset, hcount, hlast⟩ := h
  exact hcount ▸ endsAtTick_countP hreset hlast

/-! ### Runs -/

/-- One step, then the rest of the run. -/
theorem run_step {k : Nat} {s t u : State} (hstep : step s = .next t) (hrest : Host.Core.run core k t = .next u) :
    Host.Core.run core (k + 1) s = .next u :=
  (run_of_step core k s t hstep).trans hrest

/-- One run, then another from where it ends. -/
theorem run_trans {k n : Nat} {s t u : State} (hfirst : Host.Core.run core k s = .next t)
    (hrest : Host.Core.run core n t = .next u) : Host.Core.run core (k + n) s = .next u :=
  (run_add core k n s t hfirst).trans hrest

/-- A busy block with `n` ticks to come, up to and with the one at position 192, emits what is left of the wave, gives
the timer back and is idle and low. -/
theorem run_busy {n : Nat} {xs : List Input} (h : EndsAtTick n xs) {s : State} {rest : List Input}
    (hbusy : s.busy = true) (hin : s.inputs = xs ++ rest) (hpos : s.txpos.val + n = 193) :
    Host.Core.run core xs.length s = .next { s with
      inputs := rest
      wave := s.wave ++ (waveOf s.bytes).drop s.txpos.val
      tcfg := s.tsave
      pin := false
      txpos := 0
      busy := false } := by
  induction h generalizing s with
  | last hreset htick =>
    have hlast : s.txpos.val = 192 := by omega
    rw [hlast, drop_waveOf_last]
    exact run_step (step_of_lastTick hin hreset htick hbusy hlast) rfl
  | tick hreset htick hrest ih =>
    have hleft := hrest.pos
    obtain ⟨k, hk⟩ : ∃ k : Fin 192, s.txpos.val = k.val := ⟨⟨s.txpos.val, by omega⟩, rfl⟩
    rw [hk, drop_waveOf, List.append_cons]
    exact run_step (step_of_halfSymbolTick hin hreset htick hbusy k hk)
      (ih hbusy rfl (by rw [emitHalfSymbol_txpos, Fin.val_succ]; omega))
  | wait hreset htick _ ih =>
    exact run_step (step_of_busy_noTick hbusy hin hreset htick) (ih hbusy rfl hpos)

/-- What `TX` on an idle block and its 193 ticks leave behind (42_transmitter.md R111), these inputs still to come. -/
def afterTransmission (s : State) (rest : List Input) : State :=
  { s with
    inputs := rest
    wave := s.wave ++ waveOf s.bytes
    txStarts := s.txStarts ++ [s.wave.length]
    tsave := s.tcfg
    tcfg := s.tcfg
    pin := false
    txpos := 0
    busy := false }

/-- `TX` presented to an idle block starts a transmission. -/
theorem step_of_tx {s : State} {x : Input} {rest : List Input} (hidle : s.busy = false) (hin : s.inputs = x :: rest)
    (hreset : x.reset = false) (hhost : x.host = some (.command (encode .tx))) :
    step s = .next (startTransmission Config.params { s with inputs := rest }) :=
  (stepRunsTheDecodedCommand s x rest _ .tx hin hreset (by simp [hidle]) hhost (decodeInvertsEncode .tx)).trans
    (exec_tx_idle hidle)

theorem run_transmission {s : State} {x : Input} {xs rest : List Input} (hidle : s.busy = false)
    (hreset : x.reset = false) (hhost : x.host = some (.command (encode .tx))) (hxs : transmissionInputs xs)
    (hin : s.inputs = x :: (xs ++ rest)) :
    Host.Core.run core (1 + xs.length) s = .next (afterTransmission s rest) := by
  rw [Nat.add_comm]
  exact run_step (step_of_tx hidle hin hreset hhost) (run_busy hxs.endsAtTick rfl rfl rfl)

/-- While nobody acts, ticks or not, an idle block only waits. -/
theorem run_pause {pause : List Input} (hquiet : ∀ z ∈ pause, z.reset = false ∧ z.host = none) {s : State}
    {rest : List Input} (hidle : s.busy = false) (hin : s.inputs = pause ++ rest) :
    Host.Core.run core pause.length s = .next { s with inputs := rest } := by
  induction pause generalizing s with
  | nil =>
    rw [List.nil_append] at hin
    rw [← hin]
    rfl
  | cons z pause ih =>
    obtain ⟨⟨hreset, hhost⟩, hpause⟩ := List.forall_mem_cons.mp hquiet
    exact run_step (step_of_noHostAct hin hreset (by simp [hidle]) hhost) (ih hpause hidle rfl)

/-! ### The statements -/

/-- Settles O42: the run by induction on the schedule, and the constant bytes' half-symbols evaluated. -/
theorem transmissionEmitsTheWaveOfTheFrame : Obligations.TransmissionEmitsTheWaveOfTheFrame := by
  refine ⟨fun s x xs rest => run_transmission, length_waveOf, fun p F h => ?_⟩
  obtain ⟨hpreamble, hsync, hidentifier⟩ := waveOf_constantBytes h
  rw [hpreamble, hsync, hidentifier]
  decide

/-- Settles O44: the three runs one after the other; the second transmission finds the frame and the timer that the
first one found. -/
theorem repeatedTransmissionEmitsTheWaveTwice : Obligations.RepeatedTransmissionEmitsTheWaveTwice := by
  intro s x y xs pause ys rest hidle hx hxtx hxs hquiet hy hytx hys hin
  have hfirst := run_transmission (rest := pause ++ y :: (ys ++ rest)) hidle hx hxtx hxs (by simpa using hin)
  have hpause := run_pause hquiet (s := afterTransmission s (pause ++ y :: (ys ++ rest))) rfl rfl
  have hsecond := run_transmission (s := afterTransmission s (y :: (ys ++ rest))) rfl hy hytx hys rfl
  have hlength : 2 + xs.length + pause.length + ys.length = (1 + xs.length) + (pause.length + (1 + ys.length)) := by
    omega
  refine ⟨afterTransmission (afterTransmission s (y :: (ys ++ rest))) rest, ?_, rfl, rfl, rfl, rfl, rfl, rfl⟩
  rw [hlength]
  exact run_trans hfirst (run_trans hpause hsecond)

end Sys2Proof.Machine
end

section
/-! The idle block: it completes exactly the commands whose operands are defined, and a tick has no effect on it
(60_exceptions.md R135, R138). -/

namespace Sys2Proof.Machine

/-- An idle block completes only a command with operands it defines. -/
theorem wellFormed_of_exec_next {i : Instr} {s t : State} (hidle : s.busy = false) (h : exec i s = .next t) :
    i.wellFormed = true := by
  obtain ⟨hbusy, -⟩ | ⟨-, hwf, -⟩ := exec_cases h
  · simp [hidle] at hbusy
  · exact hwf

/-- Settles O10: what an idle block completes is well-formed, and a well-formed command always completes. -/
theorem commandsCompleteExactlyWhenWellFormed : Obligations.CommandsCompleteExactlyWhenWellFormed :=
  fun _ s hidle => ⟨fun ⟨_, hexec⟩ => wellFormed_of_exec_next hidle hexec, fun hwf => exec_completes hwf s⟩

theorem step_of_input {s : State} {x : Input} {rest : List Input} (hin : s.inputs = x :: rest) :
    step s = takeInput x { s with inputs := rest } := by
  simp only [step, takeNextInput, hin]

/-- A sample acts on an idle block alike whatever its tick line: a tick is enabled only while `BUSY = 1`. -/
theorem takeInput_idle_tick (x : Input) (level : Bool) {s : State} (hidle : s.busy = false) :
    takeInput { x with tick := level } s = takeInput x s := by
  simp only [takeInput, hidle, Bool.false_and]

/-- Settles O41: the sample acts as the one without its tick, and with nothing else in it has no effect. -/
theorem idleBlockIgnoresTicks : Obligations.IdleBlockIgnoresTicks := by
  intro s x rest hidle hin
  constructor
  · have hignored := takeInput_idle_tick x false (s := { s with inputs := rest }) hidle
    rw [step_of_input hin, step_of_input rfl, hignored]
  · intro hreset hhost
    exact step_of_noHostAct hin hreset (by simp [hidle]) hhost

end Sys2Proof.Machine
end

section
/-! The reset (70_reset_and_hazards.md R155): it takes precedence over whatever else the sample holds, and of the old
state only the inputs still to come are left. -/

namespace Sys2Proof.Machine

/-- A reset forgets the state: two states with the same inputs to come are reset to the same state. -/
theorem deviceReset_eq_reset (s : State) : deviceReset Config.params s = { State.reset with inputs := s.inputs } := rfl

/-- Settles O52: the reset line is read before the tick and the host, and the step it decides on is the device reset. -/
theorem resetWinsAndReplacesTheState : Obligations.ResetWinsAndReplacesTheState := by
  intro s x rest hin hreset
  calc step s
      _ = .next (deviceReset Config.params { s with inputs := rest }) := step_of_reset hin hreset
      _ = .next { State.reset with inputs := rest } := by rw [deviceReset_eq_reset]

end Sys2Proof.Machine
end
